-- ==== Sys2Proof/Word.lean ====
section
/-!
DEFINITION. The word types of the block and the closed sets of names the spec uses for its lines and tags.
A level or flag the spec calls a `bit` (00_scope.md section 4) is a `Bool`, `true` for 1.
-/
namespace Sys2Proof

/-- One unsigned 8-bit value, `byte` of 00_scope.md section 4. -/
abbrev Byte := BitVec 8

/-- One 16-bit value, `u16` of 00_scope.md section 4. -/
abbrev Word16 := BitVec 16

/-- One request word, `req_word[79:0]` (R70). -/
abbrev ReqWord := BitVec 80

/-- The five logical lines (R13). -/
inductive Line where
  | cs | clk | data | dc | rst
deriving DecidableEq, Repr

/-- The tag of a transmitted byte (00_scope.md section 5); one bit, 0 for Command and 1 for Data (R71). -/
inductive Kind where
  | command | data
deriving DecidableEq, Repr, Inhabited

/-- One bit per line: the shape of `latch`, of `oe` and of `LINE_RESET_LEVEL` (R14, R15, R4). -/
structure Lines where
  cs   : Bool
  clk  : Bool
  data : Bool
  dc   : Bool
  rst  : Bool
deriving DecidableEq, Repr

end Sys2Proof
end

