-- ==== Sys2Proof/Config.lean ====
section
/-!
DEFINITION. What is fixed when the block is constructed (00_scope.md R4, 10_state.md R12, 30_encoding.md R80), the
values the spec leaves to the builder, and the values it leaves unspecified. A constant with no body is one the spec
gives no value for: nothing can be proved of it, so every theorem holds whatever it is.
-/
namespace Sys2Proof

/-- `DC_BINDING` (R13): a line of its own, or every DC write made to DATA instead. -/
inductive DcBinding where
  | dedicated | sharedWithData
deriving DecidableEq, Repr

/-- `BINDING` (R12): four abstract line identifiers, in the order chip-select, clock, data, reset. -/
structure Binding where
  cs   : Nat
  clk  : Nat
  data : Nat
  rst  : Nat
deriving DecidableEq, Repr, Inhabited

/-- `CMD` (R80): the command-byte table, one byte a field (R83, log 14). -/
structure CmdTable where
  powerPumpOn    : Byte
  addrHorizontal : Byte
  tempcompOn     : Byte
  frameFreq80    : Byte
  oscInternal    : Byte
  pumpMultX2     : Byte
  bias           : Byte
  vopHi          : Byte
  vopLoBase      : Byte
  displayOn      : Byte
  displayOff     : Byte
  displayAllOn   : Byte
  displayNormal  : Byte
  invertFlag     : Byte
  xaddrLoBase    : Byte
  xaddrHiBase    : Byte
  yaddrBase      : Byte
deriving DecidableEq, Repr

/-- The OPEN parameters of 00_scope.md R4, supplied at construction and never changed. -/
structure Params where
  dcBinding       : DcBinding
  dcCmdLevel      : Bool
  clkIdle         : Bool
  lineResetLevel  : Lines
  defaultContrast : BitVec 4
  cmd             : CmdTable
  /-- `XHI`: entry `x` is the high nibble for column `x` (R126; log 9). -/
  xhi             : List (BitVec 4)
deriving DecidableEq, Repr

namespace Config

/-- `WIDTH` (R4). -/
abbrev width : Nat := 96
/-- `HEIGHT` (R4). -/
abbrev height : Nat := 65
/-- `PAGES` (R4). -/
abbrev pages : Nat := 9
/-- `CAPACITY` (R4): `WIDTH` times `PAGES`. -/
abbrev capacity : Nat := 864
/-- `RESET_HOLD_MS` (R4, R108). -/
abbrev resetHoldMs : Nat := 10

/-! ### Values the spec leaves to the builder and gives no default for (D12, D14; log 8) -/

/-- The line identifiers supplied at construction (R12). -/
opaque binding : Binding
/-- `DEFAULT_CONTRAST` (R4). -/
opaque defaultContrast : BitVec 4
opaque powerPumpOn : Byte
opaque addrHorizontal : Byte
opaque tempcompOn : Byte
opaque frameFreq80 : Byte
opaque oscInternal : Byte
opaque pumpMultX2 : Byte
opaque bias : Byte
opaque vopHi : Byte
opaque displayOn : Byte
opaque displayOff : Byte
opaque displayAllOn : Byte
/-- The high nibble of `VOP_LO_BASE`; its low nibble is 0 (R81). -/
opaque vopLoHigh : BitVec 4
/-- The high nibble of `XADDR_LO_BASE`; its low nibble is 0 (R81). -/
opaque xaddrLoHigh : BitVec 4
/-- The high nibble of `XADDR_HI_BASE`; its low nibble is 0 (R81). -/
opaque xaddrHiHigh : BitVec 4
/-- The high nibble of `YADDR_BASE`; its low nibble is 0 (R81). -/
opaque yaddrHigh : BitVec 4
/-- Which single bit `INVERT_FLAG` has set (R81). -/
opaque invertBit : Fin 8
/-- `DISPLAY_NORMAL` before the bit of `INVERT_FLAG` is cleared in it (R81). -/
opaque displayNormalRaw : Byte

/-- `INVERT_FLAG`: exactly one bit set (R81). -/
def invertFlag : Byte := 1#8 <<< invertBit.val

/-- The command-byte table of the machine at reset: free bytes that meet the constraints of R81. -/
def cmd : CmdTable where
  powerPumpOn := powerPumpOn
  addrHorizontal := addrHorizontal
  tempcompOn := tempcompOn
  frameFreq80 := frameFreq80
  oscInternal := oscInternal
  pumpMultX2 := pumpMultX2
  bias := bias
  vopHi := vopHi
  vopLoBase := vopLoHigh ++ 0#4
  displayOn := displayOn
  displayOff := displayOff
  displayAllOn := displayAllOn
  displayNormal := displayNormalRaw &&& ~~~invertFlag
  invertFlag := invertFlag
  xaddrLoBase := xaddrLoHigh ++ 0#4
  xaddrHiBase := xaddrHiHigh ++ 0#4
  yaddrBase := yaddrHigh ++ 0#4

/-- The spec's default `CLK_IDLE` (D6; log 7). -/
def clkIdle : Bool := false

/-- The spec's default `LINE_RESET_LEVEL` (D8; log 7). -/
def lineResetLevel : Lines where
  cs := true
  clk := clkIdle
  data := false
  dc := false
  rst := true

/-- The spec's default `XHI`, `x >> 4` for the columns 0 to 95 (D20; log 7). -/
def xhi : List (BitVec 4) := (List.range width).map fun x => BitVec.ofNat 4 (x / 16)

/-- The parameters of the machine at reset: the spec's default where it gives one (log 7), a free constant where it
gives none (log 8). -/
def params : Params where
  dcBinding := .dedicated
  dcCmdLevel := false
  clkIdle := clkIdle
  lineResetLevel := lineResetLevel
  defaultContrast := defaultContrast
  cmd := cmd
  xhi := xhi

/-! ### Unspecified values of the sequencer registers between requests (R18; log 5)
The argument counts the draws, so that no two draws need agree. -/

opaque freeOp : Nat → BitVec 8
opaque freeA : Nat → BitVec 16
opaque freeB : Nat → BitVec 16
opaque freeC : Nat → BitVec 16
opaque freeD : Nat → BitVec 16
opaque freeE : Nat → BitVec 8
opaque freeShreg : Nat → BitVec 8
opaque freeKind : Nat → Kind
opaque freeBitcnt : Nat → BitVec 4
opaque freeStep : Nat → BitVec 4
opaque freePage : Nat → BitVec 4
opaque freeCol : Nat → BitVec 7
opaque freeI : Nat → BitVec 17
opaque freeJ : Nat → BitVec 17

end Config
end Sys2Proof
end

