-- ==== Sys2Proof/Syntax.lean ====
section
/-!
DEFINITION. The requests of the block, one constructor per row of spec/opcode_table.json (R72), with their operands as
R71 assembles them: a coordinate or size is an integer, an index a natural number, `color`, `state`, `value` and `byte`
are the byte operand.
-/
namespace Sys2Proof

/-- One host request with its operands. -/
inductive Instr where
  /-- INIT (R120) -/
  | init
  /-- DISPLAY_ON (R122) -/
  | displayOn
  /-- DISPLAY_OFF (R124) -/
  | displayOff
  /-- SET_CONTRAST(value) (R123) -/
  | setContrast (value : Byte)
  /-- INVERT_DISPLAY(state) (R125) -/
  | invertDisplay (state : Byte)
  /-- CLEAR_DISPLAY (R150) -/
  | clearDisplay
  /-- DISPLAY (R190) -/
  | display
  /-- GET_BUFFER_SIZE (R156) -/
  | getBufferSize
  /-- FB_READ(index) (R157) -/
  | fbRead (index : Nat)
  /-- FB_WRITE(index, byte) (R158) -/
  | fbWrite (index : Nat) (byte : Byte)
  /-- GET_PIXEL(x, y) (R155) -/
  | getPixel (x y : Int)
  /-- DRAW_PIXEL(x, y, color) (R154) -/
  | drawPixel (x y : Int) (color : Byte)
  /-- DRAW_RECT(x, y, w, h, color) (R180) -/
  | drawRect (x y w h : Int) (color : Byte)
  /-- FILL_RECT(x, y, w, h, color) (R181) -/
  | fillRect (x y w h : Int) (color : Byte)
  /-- DRAW_SQUARE(x, y, a, color) (R182) -/
  | drawSquare (x y a : Int) (color : Byte)
  /-- FILL_SQUARE(x, y, a, color) (R183) -/
  | fillSquare (x y a : Int) (color : Byte)
  /-- FILL_SCREEN(color) (R151) -/
  | fillScreen (color : Byte)
  /-- XMIT(kind, byte) (R107) -/
  | xmit (kind : Kind) (byte : Byte)
  /-- HARD_RESET (R108) -/
  | hardReset
  /-- SET_XY(x, page) (R126) -/
  | setXy (x page : Int)
deriving DecidableEq, Repr

end Sys2Proof
end

