-- ==== Sys2Proof/WellFormed.lean ====
section
/-!
DEFINITION. Which requests a request word can carry (R71: a coordinate or size is an integer in -32768..32767, an index
is 0..65535), and which parameters the model requires of its configuration (R81, R4).
-/
namespace Sys2Proof

/-- The range of `s16` (00_scope.md section 4). -/
def inS16 (v : Int) : Bool := decide (-32768 ≤ v ∧ v ≤ 32767)

/-- The range of `u16` (00_scope.md section 4). -/
def inU16 (n : Nat) : Bool := decide (n < 65536)

/-- Every operand is one its field of the request word can hold (R71). -/
def Instr.wellFormed : Instr → Bool
  | .init => true
  | .displayOn => true
  | .displayOff => true
  | .setContrast _ => true
  | .invertDisplay _ => true
  | .clearDisplay => true
  | .display => true
  | .getBufferSize => true
  | .fbRead index => inU16 index
  | .fbWrite index _ => inU16 index
  | .getPixel x y => inS16 x && inS16 y
  | .drawPixel x y _ => inS16 x && inS16 y
  | .drawRect x y w h _ => inS16 x && inS16 y && inS16 w && inS16 h
  | .fillRect x y w h _ => inS16 x && inS16 y && inS16 w && inS16 h
  | .drawSquare x y a _ => inS16 x && inS16 y && inS16 a
  | .fillSquare x y a _ => inS16 x && inS16 y && inS16 a
  | .fillScreen _ => true
  | .xmit _ _ => true
  | .hardReset => true
  | .setXy x page => inS16 x && inS16 page

/-- The low nibble of a base byte is 0: the field the operation fills (R81). -/
def lowNibbleClear (b : Byte) : Bool := b &&& 0x0F#8 == 0#8

/-- Exactly one of the eight bits is set (R80, R81). -/
def oneBitSet (b : Byte) : Bool := (List.range 8).any fun k => b == 1#8 <<< k

/-- The constraints of R81 on the command bytes. -/
def CmdTable.wellFormed (c : CmdTable) : Bool :=
  lowNibbleClear c.vopLoBase && lowNibbleClear c.xaddrLoBase && lowNibbleClear c.xaddrHiBase
    && lowNibbleClear c.yaddrBase && oneBitSet c.invertFlag && (c.displayNormal &&& c.invertFlag == 0#8)

/-- The parameters a build must have: the constraints of R81, and a nibble of `XHI` for every column 0 to 95 (R4). -/
def Params.wellFormed (p : Params) : Bool :=
  p.cmd.wellFormed && p.xhi.length == Config.width

end Sys2Proof
end

