-- ==== Sys2Proof/Decode.lean ====
section
/-!
DEFINITION. Decoding of the 80-bit request word (R70 to R75): the fields, the operand assembly of R71, the opcode map of
R72, and a rejection by name for the reserved opcodes of R74. After it, the encoder from the same tables.
-/
namespace Sys2Proof

/-- Field `op`, bits 79:72 (R70). -/
def fieldOp (w : ReqWord) : Byte := w.extractLsb' 72 8
/-- Field `a`, bits 71:56 (R70). -/
def fieldA (w : ReqWord) : Word16 := w.extractLsb' 56 16
/-- Field `b`, bits 55:40 (R70). -/
def fieldB (w : ReqWord) : Word16 := w.extractLsb' 40 16
/-- Field `c`, bits 39:24 (R70). -/
def fieldC (w : ReqWord) : Word16 := w.extractLsb' 24 16
/-- Field `d`, bits 23:8 (R70). -/
def fieldD (w : ReqWord) : Word16 := w.extractLsb' 8 16
/-- Field `e`, bits 7:0 (R70). -/
def fieldE (w : ReqWord) : Byte := w.extractLsb' 0 8

/-- The request word with the given fields, `op` most significant (R70, D31). -/
def packWord (op : Byte) (a b c d : Word16) (e : Byte) : ReqWord :=
  op ++ a ++ b ++ c ++ d ++ e

/-- `sext_16` (00_scope.md section 4, R71). -/
def sext16 (v : Word16) : Int := v.toInt

/-- `zext_16` (00_scope.md section 4, R71). -/
def zext16 (v : Word16) : Nat := v.toNat

/-- The XMIT kind: bit 0 of field `a`, 0 for Command and 1 for Data (R71). -/
def kindOfField (a : Word16) : Kind := if a.getLsbD 0 then .data else .command

/-- Why a word is no request of R72. -/
inductive DecodeError where
  /-- The opcode is reserved (R74). -/
  | reservedOpcode (op : Byte)
deriving DecidableEq, Repr

/-- The operation an opcode selects, with its operands taken from the fields (R71, R72, R73). -/
def decodeFields (op : Byte) (a b c d : Word16) (e : Byte) : Except DecodeError Instr :=
  match op.toNat with
  | 0x01 => .ok .init
  | 0x02 => .ok .displayOn
  | 0x03 => .ok .displayOff
  | 0x04 => .ok (.setContrast e)
  | 0x05 => .ok (.invertDisplay e)
  | 0x06 => .ok .clearDisplay
  | 0x07 => .ok .display
  | 0x08 => .ok .getBufferSize
  | 0x09 => .ok (.fbRead (zext16 a))
  | 0x0A => .ok (.fbWrite (zext16 a) e)
  | 0x0B => .ok (.getPixel (sext16 a) (sext16 b))
  | 0x0C => .ok (.drawPixel (sext16 a) (sext16 b) e)
  | 0x0D => .ok (.drawRect (sext16 a) (sext16 b) (sext16 c) (sext16 d) e)
  | 0x0E => .ok (.fillRect (sext16 a) (sext16 b) (sext16 c) (sext16 d) e)
  | 0x0F => .ok (.drawSquare (sext16 a) (sext16 b) (sext16 c) e)
  | 0x10 => .ok (.fillSquare (sext16 a) (sext16 b) (sext16 c) e)
  | 0x11 => .ok (.fillScreen e)
  | 0x20 => .ok (.xmit (kindOfField a) e)
  | 0x21 => .ok .hardReset
  | 0x22 => .ok (.setXy (sext16 a) (sext16 b))
  | _ => .error (.reservedOpcode op)

/-- The request a word carries, decided by its top byte alone (R72, R75). -/
def decode (w : ReqWord) : Except DecodeError Instr :=
  decodeFields (fieldOp w) (fieldA w) (fieldB w) (fieldC w) (fieldD w) (fieldE w)

/-- The opcode of R72. -/
def opcodeOf : Instr → Byte
  | .init => 0x01
  | .displayOn => 0x02
  | .displayOff => 0x03
  | .setContrast _ => 0x04
  | .invertDisplay _ => 0x05
  | .clearDisplay => 0x06
  | .display => 0x07
  | .getBufferSize => 0x08
  | .fbRead _ => 0x09
  | .fbWrite _ _ => 0x0A
  | .getPixel _ _ => 0x0B
  | .drawPixel _ _ _ => 0x0C
  | .drawRect _ _ _ _ _ => 0x0D
  | .fillRect _ _ _ _ _ => 0x0E
  | .drawSquare _ _ _ _ => 0x0F
  | .fillSquare _ _ _ _ => 0x10
  | .fillScreen _ => 0x11
  | .xmit _ _ => 0x20
  | .hardReset => 0x21
  | .setXy _ _ => 0x22

/-- A coordinate or size as a 16-bit field (R71). -/
def fieldOfInt (v : Int) : Word16 := BitVec.ofInt 16 v

/-- An index as a 16-bit field (R71). -/
def fieldOfNat (n : Nat) : Word16 := BitVec.ofNat 16 n

/-- A kind as field `a` (R71, R107). -/
def fieldOfKind : Kind → Word16
  | .command => 0
  | .data => 1

/-- The request word of a request, 0 in the fields it does not use (R72, R73). -/
def encode (i : Instr) : ReqWord :=
  match i with
  | .init => packWord (opcodeOf i) 0 0 0 0 0
  | .displayOn => packWord (opcodeOf i) 0 0 0 0 0
  | .displayOff => packWord (opcodeOf i) 0 0 0 0 0
  | .setContrast value => packWord (opcodeOf i) 0 0 0 0 value
  | .invertDisplay state => packWord (opcodeOf i) 0 0 0 0 state
  | .clearDisplay => packWord (opcodeOf i) 0 0 0 0 0
  | .display => packWord (opcodeOf i) 0 0 0 0 0
  | .getBufferSize => packWord (opcodeOf i) 0 0 0 0 0
  | .fbRead index => packWord (opcodeOf i) (fieldOfNat index) 0 0 0 0
  | .fbWrite index byte => packWord (opcodeOf i) (fieldOfNat index) 0 0 0 byte
  | .getPixel x y => packWord (opcodeOf i) (fieldOfInt x) (fieldOfInt y) 0 0 0
  | .drawPixel x y color => packWord (opcodeOf i) (fieldOfInt x) (fieldOfInt y) 0 0 color
  | .drawRect x y w h color =>
    packWord (opcodeOf i) (fieldOfInt x) (fieldOfInt y) (fieldOfInt w) (fieldOfInt h) color
  | .fillRect x y w h color =>
    packWord (opcodeOf i) (fieldOfInt x) (fieldOfInt y) (fieldOfInt w) (fieldOfInt h) color
  | .drawSquare x y a color => packWord (opcodeOf i) (fieldOfInt x) (fieldOfInt y) (fieldOfInt a) 0 color
  | .fillSquare x y a color => packWord (opcodeOf i) (fieldOfInt x) (fieldOfInt y) (fieldOfInt a) 0 color
  | .fillScreen color => packWord (opcodeOf i) 0 0 0 0 color
  | .xmit kind byte => packWord (opcodeOf i) (fieldOfKind kind) 0 0 0 byte
  | .hardReset => packWord (opcodeOf i) 0 0 0 0 0
  | .setXy x page => packWord (opcodeOf i) (fieldOfInt x) (fieldOfInt page) 0 0 0

/-- The opcodes R72 assigns, in its order. -/
def assignedOpcodes : List Byte :=
  [0x01, 0x02, 0x03, 0x04, 0x05, 0x06, 0x07, 0x08, 0x09, 0x0A, 0x0B, 0x0C, 0x0D, 0x0E, 0x0F, 0x10, 0x11,
    0x20, 0x21, 0x22]

/-- The request word as spec/opcode_table.json numbers it: one 80-bit word, bit 0 its least significant bit, every bit
above `nbits` zero. -/
def tableWord (nbits w : Nat) : ReqWord := BitVec.ofNat 80 (w % 2 ^ nbits)

/-- What the decoder reads from an instruction whose bits are `w`. -/
def decodeTableWord (nbits w : Nat) : Option Instr :=
  match decode (tableWord nbits w) with
  | .ok i => some i
  | .error _ => none

end Sys2Proof
end

