-- ==== Sys2Proof/Machine/State.lean ====
section
/-!
DEFINITION. The state of the block (10_state.md R10 to R30) as plain data, the reasons a step can stop, and the state
right after reset (R30).
-/
namespace Sys2Proof.Machine

/-- The framebuffer as a canonical list of (index, byte) cells: indices strictly rising, no byte equal to 0x00, what an
unlisted index reads as (R30: every byte is 0 after reset; log 12). -/
abbrev Memory := List Host.Cell

/-- The sequencer's working registers (R18). No request names one. -/
structure Sequencer where
  op     : BitVec 8
  a      : BitVec 16
  b      : BitVec 16
  c      : BitVec 16
  d      : BitVec 16
  e      : BitVec 8
  shreg  : BitVec 8
  kind   : Kind
  bitcnt : BitVec 4
  step   : BitVec 4
  page   : BitVec 4
  col    : BitVec 7
  i      : BitVec 17
  j      : BitVec 17
deriving DecidableEq, Repr

/-- The values of the shadow `phase` (R26). -/
inductive Phase where
  | uninitialized | reset | configured | normal | allPixelsOn | inverted | off | unknown
deriving DecidableEq, Repr

/-- The addressing modes of the controller (R23, R28). -/
inductive AddrMode where
  | horizontal | vertical
deriving DecidableEq, Repr

/-- The specification-only shadow of what the controller has been told (R26 to R29). -/
structure Shadow where
  /-- `phase` (R26) -/
  phase    : Phase
  /-- `sh_contrast` (R27) -/
  contrast : Option (BitVec 4)
  /-- `sh_addr` (R28) -/
  addr     : Option AddrMode
  /-- `sh_home` (R29) -/
  home     : Bool
deriving DecidableEq, Repr

/-- One line event (R25). -/
inductive Event where
  /-- `W(l, v)`: level `v` written to line `l` -/
  | w (l : Line) (v : Bool)
  /-- `OE(l)`: line `l` made an output -/
  | oe (l : Line)
  /-- `H(ms)`: a hold of at least `ms` milliseconds -/
  | h (ms : Nat)
deriving DecidableEq, Repr

/-- The state of the block, and the host's side of its request port. -/
structure State where
  /-- the parameters of construction, which no request changes (R4; log 6) -/
  params    : Params
  /-- `BINDING` (R12) -/
  binding   : Binding
  /-- `FB` (R11) -/
  fb        : Memory
  /-- `latch[l]` (R14) -/
  latch     : Lines
  /-- `oe[l]` (R15) -/
  oe        : Lines
  /-- `busy` (R17) -/
  busy      : Bool
  /-- `rsp` (R22) -/
  rsp       : Word16
  /-- the working registers (R18) -/
  seq       : Sequencer
  /-- the shadow state (R26 to R29) -/
  shadow    : Shadow
  /-- `trace`, oldest event first (R25) -/
  trace     : List Event
  /-- the host's: the requests it has still to present, in order; the port shows the first (R21, R76, R252; log 2) -/
  program   : List ReqWord
  /-- the host's: the responses it has received, oldest first (R252; log 13) -/
  responses : List Word16
  /-- the model's own: how often unspecified sequencer values have been drawn (log 5) -/
  draws     : Nat
deriving DecidableEq, Repr

/-- The block raises no fault of any kind (R200), so there is no reason to fault: nobody raises one. Safe: no behaviour
of the block is cut short. -/
inductive Fault where
deriving DecidableEq, Repr

/-- Why a request has no meaning in the model. -/
inductive Refusal where
  /-- Raised by nobody in this model: every request of R72 has its meaning (the host's interface asks for the name).
  Safe: a refusal proves nothing about the block. -/
  | notModelled (mnemonic : String)
deriving DecidableEq, Repr

/-- Every line at 0. -/
def Lines.low : Lines where
  cs := false
  clk := false
  data := false
  dc := false
  rst := false

/-- The sequencer registers after reset: the spec leaves them unspecified (R30), zero and Command are the model's choice
(DESIGN CHOICE, log 4). -/
def Sequencer.atReset : Sequencer where
  op := 0
  a := 0
  b := 0
  c := 0
  d := 0
  e := 0
  shreg := 0
  kind := .command
  bitcnt := 0
  step := 0
  page := 0
  col := 0
  i := 0
  j := 0

/-- The shadow after reset (R30). -/
def Shadow.atReset : Shadow where
  phase := .uninitialized
  contrast := none
  addr := none
  home := false

/-- Reset of the block is its construction with a binding and parameters (R30, R210, R230). -/
def State.construct (p : Params) (b : Binding) : State where
  params := p
  binding := b
  fb := []
  latch := p.lineResetLevel
  oe := Lines.low
  busy := false
  rsp := 0
  seq := Sequencer.atReset
  shadow := Shadow.atReset
  trace := []
  program := []
  responses := []
  draws := 0

/-- The machine right after reset: constructed with the parameters and the binding of `Config` (R30). -/
def State.reset : State := State.construct Config.params Config.binding

end Sys2Proof.Machine
end

