-- ==== Sys2Proof/Machine/Flags.lean ====
section
/-!
DEFINITION. The block's only status flag, `busy` (R17), and what moves it: accepting a request (R21) and ending one. There
are no condition codes.
-/
namespace Sys2Proof.Machine

/-- `req_ready = ¬busy` (R21). -/
def reqReady (s : State) : Bool := !s.busy

/-- `req_valid`: the host presents a request while it has one (R21; log 2). -/
def reqValid (s : State) : Bool := !s.program.isEmpty

/-- Accept the request word `w`, `rest` being what the host presents after it: `busy` goes to 1 and the sequencer loads
the word's fields (R17, R18, R21, R70). -/
def accept (w : ReqWord) (rest : List ReqWord) (s : State) : State :=
  { s with
    program := rest
    busy := true
    seq := { s.seq with
      op := fieldOp w, a := fieldA w, b := fieldB w, c := fieldC w, d := fieldD w, e := fieldE w } }

/-- The request in progress, read from the sequencer's registers (R18, R72). -/
def requestInProgress (s : State) : Except DecodeError Instr :=
  decodeFields s.seq.op s.seq.a s.seq.b s.seq.c s.seq.d s.seq.e

/-- What the working registers hold between requests: nothing the spec specifies, so the `n`-th draw of free values
(R18; log 5). -/
def unspecifiedSeq (n : Nat) : Sequencer where
  op := Config.freeOp n
  a := Config.freeA n
  b := Config.freeB n
  c := Config.freeC n
  d := Config.freeD n
  e := Config.freeE n
  shreg := Config.freeShreg n
  kind := Config.freeKind n
  bitcnt := Config.freeBitcnt n
  step := Config.freeStep n
  page := Config.freePage n
  col := Config.freeCol n
  i := Config.freeI n
  j := Config.freeJ n

/-- The end of a request: `busy` falls (R17) and the working registers become unspecified (R18). -/
def retire (s : State) : State :=
  { s with busy := false, seq := unspecifiedSeq s.draws, draws := s.draws + 1 }

end Sys2Proof.Machine
end

