-- ==== Sys2Proof/Machine/Memory.lean ====
section
/-!
DEFINITION. The one-byte accesses to the framebuffer's cells (R41) and the canonical form they keep. Indices outside
0..863 exist in no rule: every operation guards first (R45).
-/
namespace Sys2Proof.Machine

/-- The canonical form: indices strictly rising and below 864 (R41), no listed byte equal to what an unlisted one reads
as. -/
abbrev Memory.wf (m : Memory) : Prop :=
  m.Pairwise (fun c d => c.1 < d.1) ∧ ∀ c ∈ m, c.2 ≠ 0 ∧ c.1 < Config.capacity

/-- `MemRead(a, 1)`: the byte at index `a`; an unlisted byte is 0x00 (R30, R53). -/
def Memory.read : Memory → Nat → Byte
  | [], _ => 0
  | (b, v) :: m, a => if a = b then v else Memory.read m a

/-- Drop what is listed at index `a`. -/
def Memory.erase (m : Memory) (a : Nat) : Memory := m.filter fun c => c.1 != a

/-- List a byte at its place in the rising order. -/
def Memory.insert : Memory → Nat → Byte → Memory
  | [], a, v => [(a, v)]
  | (b, u) :: m, a, v => if a < b then (a, v) :: (b, u) :: m else (b, u) :: Memory.insert m a v

/-- `MemWrite(a, 1, v)`: the byte at index `a` becomes `v` and no other changes (R52). -/
def Memory.write (m : Memory) (a : Nat) (v : Byte) : Memory :=
  if v = 0 then Memory.erase m a else Memory.insert (Memory.erase m a) a v

/-- `for i = 0 to 863: FB[i] <- v` (R150, R151, R120 step 1). -/
@[irreducible] def Memory.fill (m : Memory) (v : Byte) : Memory :=
  (List.range Config.capacity).foldl (fun m i => Memory.write m i v) m

end Sys2Proof.Machine
end

