-- ==== Sys2Proof/Machine/Operands.lean ====
section
/-!
DEFINITION. What a request's operands are worth: truth of a byte operand (R71), the bounds of R45, framebuffer and pixel
addressing (R42, R43, R153), and the composed command bytes (R82).
-/
namespace Sys2Proof.Machine

/-- `truthy(v)` is `v ≠ 0` (R71). -/
def truthy (v : Byte) : Bool := v != 0

/-- `InRange(x, y)`: the pixel lies on the display (R153). -/
def inRange (x y : Int) : Bool := decide (0 ≤ x ∧ x < 96 ∧ 0 ≤ y ∧ y < 65)

/-- The operands of SET_XY name a column and a page (R126). -/
def cursorInRange (x page : Int) : Bool := decide (0 ≤ x ∧ x < 96 ∧ 0 ≤ page ∧ page < 9)

/-- An index operand names a framebuffer byte (R157, R158). -/
def indexInRange (index : Nat) : Bool := decide (index < Config.capacity)

/-- The index of the byte for column `x` of page `page` (R42). -/
def byteIndex (x page : Nat) : Nat := x + page * 96

/-- `Idx(x, y)`, used on non-negative operands only (R153). -/
def pixelIndex (x y : Int) : Nat := byteIndex x.toNat (y.toNat / 8)

/-- `y % 8`, the row within the page (R43). -/
def pixelBit (y : Int) : Nat := y.toNat % 8

/-- `Mask(y)` (R153). -/
def pixelMask (y : Int) : Byte := 1#8 <<< pixelBit y

/-- The low nibble of a byte operand (R82, `CONTRAST_MASK` of R4). -/
def lowNibble (v : Byte) : Byte := v &&& 0x0F#8

/-- The VOP-low command (R82). -/
def vopLowByte (p : Params) (value : Byte) : Byte := p.cmd.vopLoBase ||| lowNibble value

/-- `DEFAULT_CONTRAST` as a byte operand (R120 step 10). -/
def defaultContrastByte (p : Params) : Byte := p.defaultContrast.zeroExtend 8

/-- The display-mode command normal or inverted (R82, R125). -/
def invertByte (p : Params) (state : Byte) : Byte :=
  p.cmd.displayNormal ||| (if truthy state then p.cmd.invertFlag else 0)

/-- `XHI(x)` for a column `x` (R126). -/
def xhi (p : Params) (x : Nat) : BitVec 4 := p.xhi.getD x 0

/-- The X-address-low command (R82). -/
def xAddrLowByte (p : Params) (x : Int) : Byte := p.cmd.xaddrLoBase ||| lowNibble (BitVec.ofInt 8 x)

/-- The X-address-high command (R82). -/
def xAddrHighByte (p : Params) (x : Int) : Byte :=
  p.cmd.xaddrHiBase ||| lowNibble ((xhi p x.toNat).zeroExtend 8)

/-- The Y-address command (R82). -/
def yAddrByte (p : Params) (page : Int) : Byte := p.cmd.yaddrBase ||| lowNibble (BitVec.ofInt 8 page)

end Sys2Proof.Machine
end

