-- ==== Sys2Proof/Machine/Ops.lean ====
section
/-!
DEFINITION. The named operations every request is made of: the line primitives and the transmit primitive (40_line_driver.md
R100 to R104), the hardware reset sequence (R108), the shadow update (R128), the flush (44_flush.md R190, R191), the response
(R22), and the framebuffer and shape loops (42_framebuffer.md, 43_drawing.md). Each takes the state last.
-/
namespace Sys2Proof.Machine

/-- `n` rounds of `f`, one after the other. -/
def times : Nat → (State → State) → State → State
  | 0, _, s => s
  | n + 1, f, s => times n f (f s)

/-! ### Lines -/

/-- The bit of line `l`. -/
def Lines.get (ls : Lines) : Line → Bool
  | .cs => ls.cs
  | .clk => ls.clk
  | .data => ls.data
  | .dc => ls.dc
  | .rst => ls.rst

/-- The bit of line `l` becomes `v`. -/
def Lines.set (ls : Lines) (l : Line) (v : Bool) : Lines :=
  match l with
  | .cs => { ls with cs := v }
  | .clk => { ls with clk := v }
  | .data => { ls with data := v }
  | .dc => { ls with dc := v }
  | .rst => { ls with rst := v }

/-- Where a write to line `l` goes: with `SharedWithData` a write to DC is a write to DATA (R13, R100). -/
def physicalLine (p : Params) (l : Line) : Line :=
  match p.dcBinding, l with
  | .sharedWithData, .dc => .data
  | _, l => l

/-- The level of the select line for a kind (R104). -/
def dcLevel (p : Params) : Kind → Bool
  | .command => p.dcCmdLevel
  | .data => !p.dcCmdLevel

/-- `LineWrite(l, v)` (R100). -/
def lineWrite (l : Line) (v : Bool) (s : State) : State :=
  { s with
    latch := Lines.set s.latch (physicalLine s.params l) v
    trace := s.trace ++ [.w (physicalLine s.params l) v] }

/-- `LineOutput(l)` (R101). -/
def lineOutput (l : Line) (s : State) : State :=
  { s with oe := Lines.set s.oe l true, trace := s.trace ++ [.oe l] }

/-- `ClockPulse()` (R102). -/
def clockPulse (s : State) : State :=
  lineWrite .clk s.params.clkIdle (lineWrite .clk (!s.params.clkIdle) s)

/-- `Hold(ms)` (R103). -/
def hold (ms : Nat) (s : State) : State :=
  { s with trace := s.trace ++ [.h ms] }

/-- The level on the pin of line `l`, `none` when the block does not drive it (R16). -/
def pinLevel (s : State) (l : Line) : Option Bool :=
  if Lines.get s.oe l then some (Lines.get s.latch l) else none

/-- Every line the block has is an output; DC is a line only when it is dedicated (R13, R128; log 10). -/
def linesAreOutputs (s : State) : Bool :=
  s.oe.cs && s.oe.clk && s.oe.data && s.oe.rst && (s.params.dcBinding == .sharedWithData || s.oe.dc)

/-! ### The transmit primitive -/

/-- Load the byte to shift and its tag, eight bits still to go (R18). -/
def loadShift (kind : Kind) (b : Byte) (s : State) : State :=
  { s with seq := { s.seq with shreg := b, kind := kind, bitcnt := 8 } }

/-- One round of the loop of `Transmit`: `bitcnt` goes down by 1, the data line takes that bit of the byte, the clock
pulses (R104, R20). -/
def shiftBit (s : State) : State :=
  let s := { s with seq := { s.seq with bitcnt := s.seq.bitcnt - 1 } }
  clockPulse (lineWrite .data (s.seq.shreg.getLsbD s.seq.bitcnt.toNat) s)

/-- `Transmit(kind, b)` (R104). -/
def transmit (kind : Kind) (b : Byte) (s : State) : State :=
  let s := loadShift kind b s
  let s := lineWrite .cs false s
  let s := lineWrite .dc (dcLevel s.params s.seq.kind) s
  let s := clockPulse s
  let s := times 8 shiftBit s
  lineWrite .cs true s

/-! ### The shadow -/

/-- A shadow update, made only while the lines are outputs (R128). -/
def updateShadow (f : Shadow → Shadow) (s : State) : State :=
  { s with shadow := if linesAreOutputs s then f s.shadow else s.shadow }

/-- `phase <- p`. -/
def setPhase (p : Phase) (sh : Shadow) : Shadow := { sh with phase := p }
/-- `sh_contrast <- v`. -/
def setContrastShadow (v : BitVec 4) (sh : Shadow) : Shadow := { sh with contrast := some v }
/-- `sh_addr <- m`. -/
def setAddrShadow (m : AddrMode) (sh : Shadow) : Shadow := { sh with addr := some m }
/-- `sh_home <- v`. -/
def setHomeShadow (v : Bool) (sh : Shadow) : Shadow := { sh with home := v }

/-- `phase` after DISPLAY_ON (R128; `Uninitialized` has no row there: log 11). -/
def phaseAfterDisplayOn : Phase → Phase
  | .configured => .normal
  | .normal => .normal
  | .allPixelsOn => .normal
  | .inverted => .normal
  | .off => .normal
  | .reset => .unknown
  | .unknown => .unknown
  | .uninitialized => .uninitialized

/-- `phase` after DISPLAY_OFF (R128; `Uninitialized` has no row there: log 11). -/
def phaseAfterDisplayOff : Phase → Phase
  | .configured => .off
  | .normal => .off
  | .allPixelsOn => .off
  | .inverted => .off
  | .off => .off
  | .reset => .unknown
  | .unknown => .unknown
  | .uninitialized => .uninitialized

/-- `phase` after INVERT_DISPLAY(state) (R128; `Uninitialized` has no row there: log 11). -/
def phaseAfterInvert (state : Bool) : Phase → Phase
  | .normal => if state then .inverted else .normal
  | .allPixelsOn => if state then .inverted else .normal
  | .inverted => if state then .inverted else .normal
  | .off => .off
  | .reset => .unknown
  | .configured => .unknown
  | .unknown => .unknown
  | .uninitialized => .uninitialized

/-! ### Hardware reset -/

/-- The shadow after a hardware reset (R108, R28, R29). -/
def shadowAfterHardReset (_ : Shadow) : Shadow where
  phase := .reset
  contrast := none
  addr := none
  home := true

/-- `HARD_RESET()`, also step 2 of INIT (R108). -/
def hardResetSequence (s : State) : State :=
  let s := lineWrite .rst false s
  let s := hold Config.resetHoldMs s
  let s := lineWrite .rst true s
  let s := hold Config.resetHoldMs s
  updateShadow shadowAfterHardReset s

/-! ### Framebuffer -/

/-- `FB[a]`. -/
def fbByte (s : State) (a : Nat) : Byte := Memory.read s.fb a

/-- `FB[a] <- v`. -/
def fbStore (a : Nat) (v : Byte) (s : State) : State := { s with fb := Memory.write s.fb a v }

/-- Every byte of `FB` becomes `v` (R150, R151). -/
def fbFill (v : Byte) (s : State) : State := { s with fb := Memory.fill s.fb v }

/-- `DRAW_PIXEL(x, y, color)` (R154): one bit of one byte, or nothing when out of range. -/
def plotPixel (x y : Int) (color : Byte) (s : State) : State :=
  if inRange x y then
    if truthy color then fbStore (pixelIndex x y) (fbByte s (pixelIndex x y) ||| pixelMask y) s
    else fbStore (pixelIndex x y) (fbByte s (pixelIndex x y) &&& ~~~pixelMask y) s
  else s

/-- The bit state at `(x, y)`, 0 when out of range (R155). -/
def pixelValue (x y : Int) (s : State) : Word16 :=
  if inRange x y then ((fbByte s (pixelIndex x y) >>> pixelBit y) &&& 1#8).zeroExtend 16 else 0

/-- `Respond(v)` (R22): the host receives the value (R252). -/
def respond (v : Word16) (s : State) : State :=
  { s with rsp := v, responses := s.responses ++ [v] }

/-! ### The address generator and the stream engine -/

/-- The address generator at its start, `(page, col) = (0, 0)` (R191). -/
def startAddress (s : State) : State :=
  { s with seq := { s.seq with page := 0, col := 0 } }

/-- The address generator after a byte: `col` goes up by 1, and when it would reach 96 it returns to 0 and `page` goes up
by 1 (R191). -/
def nextAddress (s : State) : State :=
  if s.seq.col = 95 then { s with seq := { s.seq with col := 0, page := s.seq.page + 1 } }
  else { s with seq := { s.seq with col := s.seq.col + 1 } }

/-- The read address `col + page × 96` (R191). -/
def flushAddress (s : State) : Nat := byteIndex s.seq.col.toNat s.seq.page.toNat

/-- One byte of the flush: `Transmit(Data, FB[col + page × 96])` (R190). -/
def streamByte (s : State) : State := transmit .data (fbByte s (flushAddress s)) s

/-- `FLUSH()` (R190, R191): the byte at (0,0), and 863 times the next one. -/
def flush (s : State) : State :=
  times 863 (fun s => streamByte (nextAddress s)) (streamByte (startAddress s))

/-! ### Shapes -/

/-- `for i = 0 to n - 1: body`, with the loop counter in the register `i` (R18). -/
def loopI (n : Nat) (body : State → State) (s : State) : State :=
  times n (fun s => let s := body s; { s with seq := { s.seq with i := s.seq.i + 1 } })
    { s with seq := { s.seq with i := 0 } }

/-- `for j = 0 to n - 1: body`, with the loop counter in the register `j` (R18). -/
def loopJ (n : Nat) (body : State → State) (s : State) : State :=
  times n (fun s => let s := body s; { s with seq := { s.seq with j := s.seq.j + 1 } })
    { s with seq := { s.seq with j := 0 } }

/-- The outline of the `w × h` box at `(x, y)`: top and bottom rows, then left and right columns (R180, R184). -/
def outline (x y w h : Int) (color : Byte) (s : State) : State :=
  if 1 ≤ w ∧ 1 ≤ h then
    let s := loopI w.toNat
      (fun s => plotPixel (x + s.seq.i.toInt) (y + h - 1) color (plotPixel (x + s.seq.i.toInt) y color s)) s
    loopJ h.toNat
      (fun s => plotPixel (x + w - 1) (y + s.seq.j.toInt) color (plotPixel x (y + s.seq.j.toInt) color s)) s
  else s

/-- Every pixel of the `w × h` box at `(x, y)`, row by row (R181, R184). -/
def box (x y w h : Int) (color : Byte) (s : State) : State :=
  if 1 ≤ w ∧ 1 ≤ h then
    loopJ h.toNat
      (fun s => loopI w.toNat (fun s => plotPixel (x + s.seq.i.toInt) (y + s.seq.j.toInt) color s) s) s
  else s

end Sys2Proof.Machine
end

