-- ==== Sys2Proof/Machine/Drawing.lean ====
section
/-!
DEFINITION. DRAW_RECT, FILL_RECT, DRAW_SQUARE and FILL_SQUARE (43_drawing.md).
-/
namespace Sys2Proof.Machine

/-- DRAW_RECT(x, y, w, h, color) (R180, R184). -/
def execDrawRect (x y w h : Int) (color : Byte) (s : State) : Host.Outcome State Fault Refusal :=
  .next (retire (outline x y w h color s))

/-- FILL_RECT(x, y, w, h, color) (R181, R184). -/
def execFillRect (x y w h : Int) (color : Byte) (s : State) : Host.Outcome State Fault Refusal :=
  .next (retire (box x y w h color s))

/-- DRAW_SQUARE(x, y, a, color) (R182). -/
def execDrawSquare (x y a : Int) (color : Byte) (s : State) : Host.Outcome State Fault Refusal :=
  .next (retire (outline x y a a color s))

/-- FILL_SQUARE(x, y, a, color) (R183). -/
def execFillSquare (x y a : Int) (color : Byte) (s : State) : Host.Outcome State Fault Refusal :=
  .next (retire (box x y a a color s))

end Sys2Proof.Machine
end

