-- ==== Sys2Proof/Machine/Framebuffer.lean ====
section
/-!
DEFINITION. CLEAR_DISPLAY, FILL_SCREEN, DRAW_PIXEL, GET_PIXEL, GET_BUFFER_SIZE, FB_READ and FB_WRITE (42_framebuffer.md).
-/
namespace Sys2Proof.Machine

/-- CLEAR_DISPLAY (R150). -/
def execClearDisplay (s : State) : Host.Outcome State Fault Refusal :=
  .next (retire (fbFill 0x00 s))

/-- FILL_SCREEN(color) (R151). -/
def execFillScreen (color : Byte) (s : State) : Host.Outcome State Fault Refusal :=
  .next (retire (fbFill (if truthy color then 0xFF else 0x00) s))

/-- DRAW_PIXEL(x, y, color) (R154). -/
def execDrawPixel (x y : Int) (color : Byte) (s : State) : Host.Outcome State Fault Refusal :=
  .next (retire (plotPixel x y color s))

/-- GET_PIXEL(x, y) (R155). -/
def execGetPixel (x y : Int) (s : State) : Host.Outcome State Fault Refusal :=
  .next (retire (respond (pixelValue x y s) s))

/-- GET_BUFFER_SIZE (R156). -/
def execGetBufferSize (s : State) : Host.Outcome State Fault Refusal :=
  .next (retire (respond (BitVec.ofNat 16 Config.capacity) s))

/-- FB_READ(index) (R157). -/
def execFbRead (index : Nat) (s : State) : Host.Outcome State Fault Refusal :=
  .next (retire (respond (if indexInRange index then (fbByte s index).zeroExtend 16 else 0) s))

/-- FB_WRITE(index, byte) (R158). -/
def execFbWrite (index : Nat) (byte : Byte) (s : State) : Host.Outcome State Fault Refusal :=
  .next (retire (if indexInRange index then fbStore index byte s else s))

end Sys2Proof.Machine
end

