-- ==== Sys2Proof/Machine/LineDriver.lean ====
section
/-!
DEFINITION. XMIT and HARD_RESET (40_line_driver.md).
-/
namespace Sys2Proof.Machine

/-- The shadow after a raw frame: a Command leaves `phase` unknown, a Data moves the cursor (R107, R29). -/
def shadowAfterXmit (kind : Kind) (sh : Shadow) : Shadow :=
  match kind with
  | .command => setPhase .unknown sh
  | .data => setHomeShadow false sh

/-- XMIT(kind, byte) (R107). -/
def execXmit (kind : Kind) (byte : Byte) (s : State) : Host.Outcome State Fault Refusal :=
  .next (retire (updateShadow (shadowAfterXmit kind) (transmit kind byte s)))

/-- HARD_RESET (R108). -/
def execHardReset (s : State) : Host.Outcome State Fault Refusal :=
  .next (retire (hardResetSequence s))

end Sys2Proof.Machine
end

