-- ==== Sys2Proof/Machine/Protocol.lean ====
section
/-!
DEFINITION. INIT, DISPLAY_ON, DISPLAY_OFF, SET_CONTRAST, INVERT_DISPLAY and SET_XY (41_controller_protocol.md).
-/
namespace Sys2Proof.Machine

/-- One Command frame (R83). -/
def sendCommand (b : Byte) (s : State) : State := transmit .command b s

/-- Step 0 of INIT: the lines become outputs, in binding order, DC last and only when it is a line (R120, C6, C10). -/
def makeLinesOutputs (s : State) : State :=
  let s := lineOutput .cs s
  let s := lineOutput .clk s
  let s := lineOutput .data s
  let s := lineOutput .rst s
  match s.params.dcBinding with
  | .dedicated => lineOutput .dc s
  | .sharedWithData => s

/-- VOP-high, then VOP-low with the low nibble of `value`, and the shadow of it (R123, R120 step 10). -/
def sendContrast (value : Byte) (s : State) : State :=
  let s := sendCommand s.params.cmd.vopHi s
  let s := sendCommand (vopLowByte s.params value) s
  updateShadow (setContrastShadow ((lowNibble value).truncate 4)) s

/-- Step `n` of INIT (R120). -/
def initStep (n : Nat) (s : State) : State :=
  match n with
  | 0 => makeLinesOutputs s
  | 1 => fbFill 0 s
  | 2 => hardResetSequence s
  | 3 => sendCommand s.params.cmd.powerPumpOn s
  | 4 => updateShadow (setAddrShadow .horizontal) (sendCommand s.params.cmd.addrHorizontal s)
  | 5 => sendCommand s.params.cmd.tempcompOn s
  | 6 => sendCommand s.params.cmd.frameFreq80 s
  | 7 => sendCommand s.params.cmd.oscInternal s
  | 8 => sendCommand s.params.cmd.pumpMultX2 s
  | 9 => sendCommand s.params.cmd.bias s
  | 10 => updateShadow (setPhase .configured) (sendContrast (defaultContrastByte s.params) s)
  | 11 => flush s
  | 12 => updateShadow (setPhase .normal) (sendCommand s.params.cmd.displayOn s)
  | 13 => updateShadow (setPhase .allPixelsOn) (sendCommand s.params.cmd.displayAllOn s)
  | _ => s

/-- The step the `step` register stands at (R18, R20). -/
def currentInitStep (s : State) : State := initStep s.seq.step.toNat s

/-- The bring-up sequence: `step` goes 0, 1, ..., 13 (R120, R20). -/
def initSequence (s : State) : State :=
  times 13 (fun s => currentInitStep { s with seq := { s.seq with step := s.seq.step + 1 } })
    (currentInitStep { s with seq := { s.seq with step := 0 } })

/-- INIT (R120, R129). -/
def execInit (s : State) : Host.Outcome State Fault Refusal :=
  .next (retire (initSequence s))

/-- DISPLAY_ON (R122, R128). -/
def execDisplayOn (s : State) : Host.Outcome State Fault Refusal :=
  .next (retire (updateShadow (fun sh => setPhase (phaseAfterDisplayOn sh.phase) sh)
    (sendCommand s.params.cmd.displayOn s)))

/-- DISPLAY_OFF (R124, R128). -/
def execDisplayOff (s : State) : Host.Outcome State Fault Refusal :=
  .next (retire (updateShadow (fun sh => setPhase (phaseAfterDisplayOff sh.phase) sh)
    (sendCommand s.params.cmd.displayOff s)))

/-- SET_CONTRAST(value) (R123). -/
def execSetContrast (value : Byte) (s : State) : Host.Outcome State Fault Refusal :=
  .next (retire (sendContrast value s))

/-- INVERT_DISPLAY(state) (R125, R128). -/
def execInvertDisplay (state : Byte) (s : State) : Host.Outcome State Fault Refusal :=
  .next (retire (updateShadow (fun sh => setPhase (phaseAfterInvert (truthy state) sh.phase) sh)
    (sendCommand (invertByte s.params state) s)))

/-- The three cursor commands, in the order X low, X high, Y, and the shadow of them (R126). -/
def sendCursor (x page : Int) (s : State) : State :=
  let s := sendCommand (xAddrLowByte s.params x) s
  let s := sendCommand (xAddrHighByte s.params x) s
  let s := sendCommand (yAddrByte s.params page) s
  updateShadow (setHomeShadow false) s

/-- SET_XY(x, page), a silent no-op when out of range (R126). -/
def execSetXy (x page : Int) (s : State) : Host.Outcome State Fault Refusal :=
  .next (retire (if cursorInRange x page then sendCursor x page s else s))

end Sys2Proof.Machine
end

