-- ==== Sys2Proof/Machine/Stream.lean ====
section
/-!
DEFINITION. DISPLAY (44_flush.md).
-/
namespace Sys2Proof.Machine

/-- DISPLAY (R190). -/
def execDisplay (s : State) : Host.Outcome State Fault Refusal :=
  .next (retire (flush s))

end Sys2Proof.Machine
end

