-- ==== Sys2Proof/Machine/Dispatch.lean ====
section
/-!
DEFINITION. The meaning of each request: one arm per constructor of Instr, in the order of spec/opcode_table.json.
-/
namespace Sys2Proof.Machine

def exec (i : Instr) (s : State) : Host.Outcome State Fault Refusal :=
  match i with
  | .init => Sys2Proof.Machine.execInit s
  | .displayOn => Sys2Proof.Machine.execDisplayOn s
  | .displayOff => Sys2Proof.Machine.execDisplayOff s
  | .setContrast value => Sys2Proof.Machine.execSetContrast value s
  | .invertDisplay state => Sys2Proof.Machine.execInvertDisplay state s
  | .clearDisplay => Sys2Proof.Machine.execClearDisplay s
  | .display => Sys2Proof.Machine.execDisplay s
  | .getBufferSize => Sys2Proof.Machine.execGetBufferSize s
  | .fbRead index => Sys2Proof.Machine.execFbRead index s
  | .fbWrite index byte => Sys2Proof.Machine.execFbWrite index byte s
  | .getPixel x y => Sys2Proof.Machine.execGetPixel x y s
  | .drawPixel x y color => Sys2Proof.Machine.execDrawPixel x y color s
  | .drawRect x y w h color => Sys2Proof.Machine.execDrawRect x y w h color s
  | .fillRect x y w h color => Sys2Proof.Machine.execFillRect x y w h color s
  | .drawSquare x y a color => Sys2Proof.Machine.execDrawSquare x y a color s
  | .fillSquare x y a color => Sys2Proof.Machine.execFillSquare x y a color s
  | .fillScreen color => Sys2Proof.Machine.execFillScreen color s
  | .xmit kind byte => Sys2Proof.Machine.execXmit kind byte s
  | .hardReset => Sys2Proof.Machine.execHardReset s
  | .setXy x page => Sys2Proof.Machine.execSetXy x page s

end Sys2Proof.Machine
end

