-- ==== Sys2Proof/Machine/Run.lean ====
section
/-!
DEFINITION. Running the request in progress (R17, R50, R74).
-/
namespace Sys2Proof.Machine

/-- Run the request in progress to its end; a reserved opcode ends as it began (R74). -/
def runRequest (s : State) : Host.Outcome State Fault Refusal :=
  match requestInProgress s with
  | .ok i => exec i s
  | .error _ => .next (retire s)

end Sys2Proof.Machine
end

