-- ==== Sys2Proof/Machine/Step.lean ====
section
/-!
DEFINITION. One step of the block: it accepts the request the host presents and runs it to completion (R17, R21, R50; one
atomic transition, D27; log 1), and where the next request is placed.
-/
namespace Sys2Proof.Machine

/-- One step. While `busy` is 1 no request is accepted and the one in progress runs to completion (R17; log 1). With no
request presented the block waits (R31; log 3). -/
def step (s : State) : Host.Outcome State Fault Refusal :=
  match s.busy, s.program with
  | true, _ => runRequest s
  | false, [] => .next s
  | false, w :: rest => runRequest (accept w rest s)

/-- The request the table numbers `w`, placed at the port of an idle block, before whatever the host presents next
(log 2). -/
def State.withFetchWord (s : State) (nbits w : Nat) : State :=
  { s with busy := false, program := tableWord nbits w :: s.program }

end Sys2Proof.Machine
end

