-- ==== Sys2Proof/Machine/HostSide.lean ====
section
/-!
DEFINITION. What the host does with the block (60_exceptions.md R210): presenting requests, the pseudo-operations it expands
into requests (R77, R159, R160), running a list of requests (R252), and resetting the block again (R32).
-/
namespace Sys2Proof.Machine

/-- The host has these request words to present after those it has already. -/
def present (ws : List ReqWord) (s : State) : State := { s with program := s.program ++ ws }

/-- PUSH_BUFFER(buf, size): `FB_WRITE(i, buf[i])` for `i = 0, ..., size - 1`, and nothing when `size > 864` (R77, R159).
The host's duty is to hold `size` bytes in `buf`; of a shorter one only the bytes there are can be written (log 15). -/
def pushBuffer (buf : List Byte) (size : Nat) : List Instr :=
  if size ≤ Config.capacity then (buf.take size).zipIdx.map fun q => .fbWrite q.2 q.1 else []

/-- GET_BUFFER(): `FB_READ(i)` for `i = 0, ..., 863` (R77, R160). -/
def getBuffer : List Instr := (List.range Config.capacity).map fun i => .fbRead i

/-- SET_PIXEL(x, y, color) is DRAW_PIXEL(x, y, color) (R77). -/
def setPixel (x y : Int) (color : Byte) : List Instr := [.drawPixel x y color]

/-- A list of requests, each run to completion before the next (R50). -/
def execAll : List Instr → State → Host.Outcome State Fault Refusal
  | [], s => .next s
  | i :: is, s =>
    match exec i s with
    | .next t => execAll is t
    | .fault r => .fault r
    | .refused r => .refused r

/-- The bytes GET_BUFFER collects: the low bytes of the last 864 responses (R160). -/
def collectedBuffer (s : State) : List Byte :=
  (s.responses.drop (s.responses.length - Config.capacity)).map fun v => v.truncate 8

/-- Another reset of the block (R32, R230): constructed again with the same parameters and binding, so every piece of the
block's state is at its reset value (R30). Never during a request (R242). What R30 does not speak of is the model's choice
(DESIGN CHOICE, log 19): the requests the host still means to present are kept, the responses it has received start anew with
`rsp`, and the counter of free values runs on, so that no value drawn after the reset is one drawn before it (log 5). The
working registers, unspecified in R30, get the model's reset value again (log 4). -/
def blockReset (s : State) : State :=
  { State.construct s.params s.binding with program := s.program, draws := s.draws }

end Sys2Proof.Machine
end

