-- ==== Sys2Proof/Machine/Wire.lean ====
section
/-!
DEFINITION. What a trace says on the lines: replaying events on the latches and output enables (R14, R15, R25), and what a
controller clocking the lines is sent, the frame decoding of 30_encoding.md R78 and R79. The block itself reads none of this.
-/
namespace Sys2Proof.Machine

/-- The latches after one event (R14, R100). -/
def latchAfter (ls : Lines) : Event → Lines
  | .w l v => Lines.set ls l v
  | .oe _ => ls
  | .h _ => ls

/-- The output enables after one event (R15, R101). -/
def outputsAfter (ls : Lines) : Event → Lines
  | .w _ _ => ls
  | .oe l => Lines.set ls l true
  | .h _ => ls

/-- The latches after a list of events. -/
def replayLatch (ls : Lines) (evs : List Event) : Lines := evs.foldl latchAfter ls

/-- The output enables after a list of events. -/
def replayOutputs (ls : Lines) (evs : List Event) : Lines := evs.foldl outputsAfter ls

/-- Whether an event is the clock line going to `edge`. -/
def isClockEdge (edge : Bool) (e : Event) : Bool := e == .w .clk edge

/-- Replay the events on the latches and record the pair `(latch[DC], latch[DATA])` at each write of `edge` to the clock
line (R79). -/
def clockSamples (edge : Bool) : Lines → List Event → List (Bool × Bool)
  | _, [] => []
  | ls, e :: es =>
    let ls' := latchAfter ls e
    if isClockEdge edge e then (ls'.dc, ls'.data) :: clockSamples edge ls' es
    else clockSamples edge ls' es

/-- The kind a select level stands for (R104). -/
def kindOfLevel (p : Params) (v : Bool) : Kind := if v = p.dcCmdLevel then .command else .data

/-- `Σ s_k.DATA × 2^(8-k)`, first sample most significant (R79). -/
def byteOfSamples (samples : List (Bool × Bool)) : Byte :=
  BitVec.ofNat 8 (samples.foldl (fun n s => 2 * n + s.2.toNat) 0)

/-- The kind, the byte and the data level at the leading pulse that nine samples carry (R79). A dedicated select line
must hold one level through the eight data pulses; without one the leading data level is the kind (R78; log 21). -/
def decodeSamples (p : Params) : List (Bool × Bool) → Option (Kind × Byte × Bool)
  | lead :: s :: rest =>
    if rest.length = 7 then
      match p.dcBinding with
      | .dedicated =>
        if rest.all (fun t => t.1 == s.1) then some (kindOfLevel p s.1, byteOfSamples (s :: rest), lead.2) else none
      | .sharedWithData => some (kindOfLevel p lead.2, byteOfSamples (s :: rest), lead.2)
    else none
  | _ => none

/-- `FrameDecode` of the events of one frame, sampled at the active edge of each pulse (R79). -/
def frameDecode (p : Params) (ls : Lines) (frame : List Event) : Option (Kind × Byte × Bool) :=
  decodeSamples p (clockSamples (!p.clkIdle) ls frame)

/-- The frames of a trace: from each `W(CS, 0)` up to the next `W(CS, 1)` (R79). The first argument is the frame that is
open, if one is. -/
def splitFrames : Option (List Event) → List Event → List (List Event)
  | _, [] => []
  | none, e :: es => if e = .w .cs false then splitFrames (some [e]) es else splitFrames none es
  | some open_, e :: es =>
    if e = .w .cs true then (open_ ++ [e]) :: splitFrames none es else splitFrames (some (open_ ++ [e])) es

/-- Decode frames one after the other, each starting from the levels the one before it left. -/
def decodeFrames (p : Params) : Lines → List (List Event) → List (Option (Kind × Byte × Bool))
  | _, [] => []
  | ls, f :: fs => frameDecode p ls f :: decodeFrames p (replayLatch ls f) fs

/-- What the events of a trace send, frame by frame, starting from the levels `ls` (R79). -/
def sentFrames (p : Params) (ls : Lines) (evs : List Event) : List (Option (Kind × Byte × Bool)) :=
  decodeFrames p ls (splitFrames none evs)

end Sys2Proof.Machine
end

