-- ==== Sys2Proof/Safety.lean ====
section
/-!
DEFINITION. The terms the statements use: the events a frame and each sequence of the spec consists of, written out from the
rules; what a request leaves unchanged; which pixels a shape covers; and the invariant of the block between requests.
-/
namespace Sys2Proof.Machine

/-! ### Events, written out from the rules -/

/-- One clock pulse (R102). -/
def pulseEvents (p : Params) : List Event := [.w .clk (!p.clkIdle), .w .clk p.clkIdle]

/-- One data bit: the data line, then a pulse (R104). -/
def bitEvents (p : Params) (v : Bool) : List Event := .w .data v :: pulseEvents p

/-- The line that carries the kind (R78). -/
def selectLine (p : Params) : Line :=
  match p.dcBinding with
  | .dedicated => .dc
  | .sharedWithData => .data

/-- The 29 events of one frame: chip-select low, the kind, the leading pulse, bits 7 to 0, chip-select high (R78, R104,
R105). -/
def frameEvents (p : Params) (kind : Kind) (b : Byte) : List Event :=
  [.w .cs false, .w (selectLine p) (if kind = .command then p.dcCmdLevel else !p.dcCmdLevel)] ++ pulseEvents p
    ++ bitEvents p (b.getLsbD 7) ++ bitEvents p (b.getLsbD 6) ++ bitEvents p (b.getLsbD 5)
    ++ bitEvents p (b.getLsbD 4) ++ bitEvents p (b.getLsbD 3) ++ bitEvents p (b.getLsbD 2)
    ++ bitEvents p (b.getLsbD 1) ++ bitEvents p (b.getLsbD 0) ++ [.w .cs true]

/-- The frames of a list of Command bytes. -/
def commandEvents (p : Params) (bs : List Byte) : List Event := bs.flatMap (frameEvents p .command)

/-- The frames of a list of Data bytes. -/
def dataEvents (p : Params) (bs : List Byte) : List Event := bs.flatMap (frameEvents p .data)

/-- The four events of a hardware reset (R108). -/
def hardResetEvents : List Event := [.w .rst false, .h 10, .w .rst true, .h 10]

/-- The events of step 0 of INIT (R120). -/
def outputEvents (p : Params) : List Event :=
  match p.dcBinding with
  | .dedicated => [.oe .cs, .oe .clk, .oe .data, .oe .rst, .oe .dc]
  | .sharedWithData => [.oe .cs, .oe .clk, .oe .data, .oe .rst]

/-- The Command bytes of INIT steps 3 to 10, in order (R120, R127). -/
def configurationBytes (p : Params) : List Byte :=
  [p.cmd.powerPumpOn, p.cmd.addrHorizontal, p.cmd.tempcompOn, p.cmd.frameFreq80, p.cmd.oscInternal,
    p.cmd.pumpMultX2, p.cmd.bias, p.cmd.vopHi, p.cmd.vopLoBase ||| p.defaultContrast.zeroExtend 8]

/-- The events of INIT (R120, R127). -/
def initEvents (p : Params) : List Event :=
  outputEvents p ++ hardResetEvents ++ commandEvents p (configurationBytes p)
    ++ dataEvents p (List.replicate 864 0) ++ commandEvents p [p.cmd.displayOn, p.cmd.displayAllOn]

/-- The bytes of the framebuffer in index order (R160, R190). -/
def fbBytes (s : State) : List Byte := (List.range 864).map (Memory.read s.fb)

/-- Whether an event is a line write. -/
def isWrite : Event → Bool
  | .w _ _ => true
  | .oe _ => false
  | .h _ => false

/-- Whether an event makes a line an output. -/
def isOutput : Event → Bool
  | .w _ _ => false
  | .oe _ => true
  | .h _ => false

/-- Whether an event is a hold, of any length. -/
def isHold : Event → Bool
  | .w _ _ => false
  | .oe _ => false
  | .h _ => true

/-! ### What a request changes and keeps -/

/-- The events from `s` to `t`: appended to the trace, and nothing but they moved a latch or an output enable (R14, R15,
R25). -/
def Emits (s t : State) (evs : List Event) : Prop :=
  t.trace = s.trace ++ evs ∧ t.latch = replayLatch s.latch evs ∧ t.oe = replayOutputs s.oe evs

/-- What no request touches: the parameters, the binding, the requests still to come; and the request is over. -/
def Completed (s t : State) : Prop :=
  t.params = s.params ∧ t.binding = s.binding ∧ t.program = s.program ∧ t.busy = false

/-- A completed request that changes the framebuffer at most. -/
def ChangesFbOnly (s t : State) : Prop :=
  Completed s t ∧ t.latch = s.latch ∧ t.oe = s.oe ∧ t.trace = s.trace ∧ t.shadow = s.shadow ∧ t.rsp = s.rsp
    ∧ t.responses = s.responses

/-- A completed request that responds `v` and changes nothing else of the block. -/
def RespondsOnly (s t : State) (v : Word16) : Prop :=
  Completed s t ∧ t.fb = s.fb ∧ t.latch = s.latch ∧ t.oe = s.oe ∧ t.trace = s.trace ∧ t.shadow = s.shadow
    ∧ t.rsp = v

/-- A completed request that produces the events `evs` and changes nothing else but, perhaps, the shadow. -/
def DrivesOnly (s t : State) (evs : List Event) : Prop :=
  Completed s t ∧ t.fb = s.fb ∧ t.rsp = s.rsp ∧ t.responses = s.responses ∧ Emits s t evs

/-- The shadow becomes `sh` when the lines are outputs, that is when the controller can be reached (R16, R128). -/
def ShadowBecomes (s t : State) (sh : Shadow) : Prop := linesAreOutputs s = true → t.shadow = sh

/-- A completed request that changes nothing. -/
def ChangesNothing (s t : State) : Prop := ChangesFbOnly s t ∧ t.fb = s.fb

/-! ### Pixels -/

/-- Bit `row % 8` of the byte for column `x` of page `row / 8`: the stored state of row `row` of column `x`, for the 72
rows the storage has (R42, R43, R44). -/
def storedBit (s : State) (x row : Nat) : Bool := (Memory.read s.fb (x + row / 8 * 96)).getLsbD (row % 8)

/-- The box of columns `x` to `x + w - 1` and rows `y` to `y + h - 1` (R180, R181). -/
def InBox (x y w h px py : Int) : Prop := x ≤ px ∧ px ≤ x + w - 1 ∧ y ≤ py ∧ py ≤ y + h - 1

/-- The four sides of the box (R180). -/
def OnOutline (x y w h px py : Int) : Prop :=
  InBox x y w h px py ∧ (px = x ∨ px = x + w - 1 ∨ py = y ∨ py = y + h - 1)

/-- From `s` to `t` exactly the display's pixels in `covered` took the colour; every other stored bit, those of rows 65 to
71 among them, is as it was, and so is every index outside the framebuffer (R44, R45, R154, R184). -/
def Painted (s t : State) (covered : Int → Int → Prop) (color : Byte) : Prop :=
  (∀ x row : Nat, x < 96 → row < 65 → covered x row → storedBit t x row = (color != 0)) ∧
  (∀ x row : Nat, x < 96 → row < 65 → ¬ covered x row → storedBit t x row = storedBit s x row) ∧
  (∀ x row : Nat, x < 96 → 65 ≤ row → row < 72 → storedBit t x row = storedBit s x row) ∧
  (∀ a : Nat, 864 ≤ a → Memory.read t.fb a = Memory.read s.fb a)

/-! ### Classes of requests -/

/-- The operations of 42_framebuffer.md and 43_drawing.md (R152). -/
def framebufferRequest : Instr → Bool
  | .clearDisplay => true
  | .fillScreen _ => true
  | .drawPixel _ _ _ => true
  | .getPixel _ _ => true
  | .getBufferSize => true
  | .fbRead _ => true
  | .fbWrite _ _ => true
  | .drawRect _ _ _ _ _ => true
  | .fillRect _ _ _ _ _ => true
  | .drawSquare _ _ _ _ => true
  | .fillSquare _ _ _ _ => true
  | .init => false
  | .displayOn => false
  | .displayOff => false
  | .setContrast _ => false
  | .invertDisplay _ => false
  | .display => false
  | .xmit _ _ => false
  | .hardReset => false
  | .setXy _ _ => false

/-- The three requests that respond (R22, R72). -/
def respondingRequest : Instr → Bool
  | .getPixel _ _ => true
  | .getBufferSize => true
  | .fbRead _ => true
  | .clearDisplay => false
  | .fillScreen _ => false
  | .drawPixel _ _ _ => false
  | .fbWrite _ _ => false
  | .drawRect _ _ _ _ _ => false
  | .fillRect _ _ _ _ _ => false
  | .drawSquare _ _ _ _ => false
  | .fillSquare _ _ _ _ => false
  | .init => false
  | .displayOn => false
  | .displayOff => false
  | .setContrast _ => false
  | .invertDisplay _ => false
  | .display => false
  | .xmit _ _ => false
  | .hardReset => false
  | .setXy _ _ => false

/-- The bits of a request word an opcode's operation uses, the opcode's own bits among them: the "Operands used" column of
R72, bit 56 alone of field `a` for XMIT (R73). -/
def usedBits (op : Byte) : ReqWord :=
  if op ∈ [0x01#8, 0x02#8, 0x03#8, 0x06#8, 0x07#8, 0x08#8, 0x21#8] then 0xFF000000000000000000#80
  else if op ∈ [0x04#8, 0x05#8, 0x11#8] then 0xFF0000000000000000FF#80
  else if op = 0x09#8 then 0xFFFFFF00000000000000#80
  else if op = 0x0A#8 then 0xFFFFFF000000000000FF#80
  else if op ∈ [0x0B#8, 0x22#8] then 0xFFFFFFFFFF0000000000#80
  else if op = 0x0C#8 then 0xFFFFFFFFFF00000000FF#80
  else if op ∈ [0x0D#8, 0x0E#8] then 0xFFFFFFFFFFFFFFFFFFFF#80
  else if op ∈ [0x0F#8, 0x10#8] then 0xFFFFFFFFFFFFFF0000FF#80
  else if op = 0x20#8 then 0xFF0001000000000000FF#80
  else 0xFF000000000000000000#80

/-! ### Invariants -/

/-- What holds of the block between requests: the framebuffer in canonical form inside its 864 bytes (R41, R45), no
request in progress (R17), chip-select and reset unasserted and the clock at rest (R252, R108, R102), the shadow phase
past `Uninitialized` exactly when the lines are outputs and nothing else in the shadow before that (R128), and the
response register the last response, or 0 (R22). -/
def State.Inv (s : State) : Prop :=
  Memory.wf s.fb ∧ s.busy = false ∧ s.latch.cs = true ∧ s.latch.rst = true ∧ s.latch.clk = s.params.clkIdle
    ∧ (linesAreOutputs s = true ↔ s.shadow.phase ≠ .uninitialized)
    ∧ (linesAreOutputs s = false → s.shadow = Shadow.atReset)
    ∧ s.rsp = s.responses.getLastD 0

/-- The latches and output enables are what the trace made of their reset levels (R14, R15, R25). -/
def State.TraceExplainsLines (s : State) : Prop :=
  s.latch = replayLatch s.params.lineResetLevel s.trace ∧ s.oe = replayOutputs Lines.low s.trace

end Sys2Proof.Machine
end

