-- ==== Sys2Proof/Certificates/Slice0/Obligations.lean ====
section
/-!
DEFINITION. The statements about the model, from the numbered rules of spec/. A docstring names the rule a statement
formalises; where a clause rests on a decision the spec marks as its own, it says which.
-/

open Sys2Proof Sys2Proof.Machine

/-! ### Reset and invariants -/

/-- R30, for every binding and all parameters. The latch levels are the parameter LINE_RESET_LEVEL and `rsp`, `busy` and the
shadow values are the spec's own decisions D8, D25, D27, D29. -/
def Obligations.ResetLeavesTheStatedValues : Prop :=
  ∀ (p : Params) (b : Binding),
    (∀ a, a < 864 → Memory.read (State.construct p b).fb a = 0) ∧
    (State.construct p b).binding = b ∧
    (∀ l, Lines.get (State.construct p b).oe l = false) ∧
    (∀ l, Lines.get (State.construct p b).latch l = Lines.get p.lineResetLevel l) ∧
    (State.construct p b).busy = false ∧ (State.construct p b).rsp = 0 ∧ (State.construct p b).trace = [] ∧
    (State.construct p b).shadow.phase = .uninitialized ∧ (State.construct p b).shadow.contrast = none ∧
    (State.construct p b).shadow.addr = none ∧ (State.construct p b).shadow.home = false

/-- The machine right after reset meets both invariants of the model, and its parameters meet R81. It rests on the default
parameters of the spec (log 7) and on the constraints built into the free command bytes (log 8). -/
def Obligations.ResetMeetsTheInvariants : Prop :=
  State.reset.Inv ∧ State.reset.TraceExplainsLines ∧ State.reset.params.wellFormed = true

/-- Every step keeps what holds of the block between requests: the framebuffer's canonical form inside its 864 bytes, no
request in progress, chip-select and reset unasserted, the clock at rest, the shadow phase past `Uninitialized` exactly
when the lines are outputs, the response register the last response. Uses D25, D27, D29, log 10 and log 11. -/
def Obligations.StepKeepsTheInvariant : Prop :=
  ∀ s t : State, s.Inv → step s = .next t → t.Inv

/-- Every step keeps that the latches hold the level last written and the output enables what the trace made outputs
(R14, R15, R25). -/
def Obligations.StepKeepsLinesExplainedByTrace : Prop :=
  ∀ s t : State, s.TraceExplainsLines → step s = .next t → t.TraceExplainsLines

/-! ### Encoding -/

/-- Decoding the word of a request gives the request back, every operand at every value its field holds (R70 to R72). -/
def Obligations.DecodeInvertsEncode : Prop :=
  ∀ i : Instr, i.wellFormed = true → decode (encode i) = .ok i

/-- A word that decodes carries a well-formed request, and the word of that request is the same word with the fields the
operation does not use cleared (R71 to R73). -/
def Obligations.EncodeInvertsDecodeOnUsedBits : Prop :=
  ∀ (w : ReqWord) (i : Instr), decode w = .ok i →
    i.wellFormed = true ∧ encode i = w &&& usedBits (fieldOp w)

/-- R73: two words that agree in the bits the operation uses decode alike. -/
def Obligations.UnusedBitsDoNotMatter : Prop :=
  ∀ v w : ReqWord, v &&& usedBits (fieldOp v) = w &&& usedBits (fieldOp v) → decode v = decode w

/-- R72, R74: the opcodes that decode to no request are exactly 0x00, 0x12 to 0x1F and 0x23 to 0xFF. -/
def Obligations.ReservedOpcodesAreExactlyTheUnassigned : Prop :=
  ∀ w : ReqWord, decode w = .error (.reservedOpcode (fieldOp w)) ↔
    (fieldOp w).toNat = 0x00 ∨ (0x12 ≤ (fieldOp w).toNat ∧ (fieldOp w).toNat ≤ 0x1F) ∨ 0x23 ≤ (fieldOp w).toNat

/-- Words decode to the requests they stand for: six the spec writes out (95_test_vectors.md V7, V9, V11, V14, V15 and 2.4),
and the word of XMIT(Data, 0x80), written from the pattern `20 000k 0000 0000 0000 bb` of R107 (R70 to R73). -/
def Obligations.WrittenOutWordsDecode : Prop :=
  decode 0x0C002800280000000001#80 = .ok (.drawPixel 40 40 1) ∧
  decode 0x0DFFFEFFFE0005000501#80 = .ok (.drawRect (-2) (-2) 5 5 1) ∧
  decode 0x0A035F000000000000FF#80 = .ok (.fbWrite 863 0xFF) ∧
  decode 0x0400000000000000003A#80 = .ok (.setContrast 0x3A) ∧
  decode 0x20000100000000000080#80 = .ok (.xmit .data 0x80) ∧
  decode 0x22002500050000000000#80 = .ok (.setXy 37 5) ∧
  decode 0x07000000000000000000#80 = .ok .display

/-! ### The step -/

/-- When an idle block is presented a word that decodes, the step is exec of that request, on the state in which the port
has gone on to the next request, `busy` is 1 and the sequencer holds the word's fields (R17, R18, R21, R70). -/
def Obligations.StepRunsTheDecodedRequest : Prop :=
  ∀ (s : State) (w : ReqWord) (rest : List ReqWord) (i : Instr),
    s.busy = false → s.program = w :: rest → decode w = .ok i →
    step s = exec i { s with
      program := rest
      busy := true
      seq := { s.seq with
        op := w.extractLsb' 72 8, a := w.extractLsb' 56 16, b := w.extractLsb' 40 16, c := w.extractLsb' 24 16,
        d := w.extractLsb' 8 16, e := w.extractLsb' 0 8 } }

/-- R74: a request with a reserved opcode is accepted and changes nothing. -/
def Obligations.ReservedRequestIsASilentNoOp : Prop :=
  ∀ (s : State) (w : ReqWord) (rest : List ReqWord),
    s.busy = false → s.program = w :: rest →
    ((fieldOp w).toNat = 0x00 ∨ (0x12 ≤ (fieldOp w).toNat ∧ (fieldOp w).toNat ≤ 0x1F) ∨ 0x23 ≤ (fieldOp w).toNat) →
    ∃ t, step s = .next t ∧ ChangesNothing { s with program := rest } t

/-- A request is taken only from a port that shows one, and only by an idle block (R17, R21): with none presented an idle
block stays as it is (R31; log 3), and while one is in progress none is accepted, the step that ends it leaving the block
ready (log 1). -/
def Obligations.RequestsAreTakenOnlyWhenReady : Prop :=
  (∀ s : State, s.busy = false → s.program = [] → step s = .next s) ∧
  (∀ s t : State, s.busy = true → step s = .next t → t.program = s.program ∧ reqReady t = true)

/-- R200: no request and no step faults or is refused. Every request, on every operand and in every state, runs to
completion: the parameters and the binding are as they were (R12), the requests still to come are untouched, and `busy` is
0 (R17). -/
def Obligations.EveryRequestRunsToCompletion : Prop :=
  (∀ (i : Instr) (s : State), ∃ t, exec i s = .next t ∧ Completed s t) ∧ (∀ s : State, ∃ t, step s = .next t)

/-! ### The line driver -/

/-- R104: `Transmit(kind, b)` appends the events of one frame, in the order the rule lists them, moves the latches as they
say and touches nothing else. -/
def Obligations.TransmitShiftsOneTaggedByte : Prop :=
  ∀ (k : Kind) (b : Byte) (s : State),
    Emits s (transmit k b s) (frameEvents s.params k b) ∧ (transmit k b s).fb = s.fb ∧
    (transmit k b s).rsp = s.rsp ∧ (transmit k b s).shadow = s.shadow ∧ (transmit k b s).busy = s.busy ∧
    (transmit k b s).params = s.params ∧ (transmit k b s).binding = s.binding

/-- The counts and the levels a frame leaves (inferred in R105 from R102 and R104): 29 line writes, the data line written 8
times (9 when it also carries the kind), chip-select 1, the clock idle, the data line at bit 0, a dedicated select line at
the kind, the reset line as it was. -/
def Obligations.FrameHasTwentyNineWrites : Prop :=
  ∀ (p : Params) (k : Kind) (b : Byte) (ls : Lines),
    (frameEvents p k b).length = 29 ∧ (frameEvents p k b).countP isWrite = 29 ∧
    (frameEvents p k b).countP (fun e => e == .w .data true || e == .w .data false)
      = (match p.dcBinding with | .dedicated => 8 | .sharedWithData => 9) ∧
    (replayLatch ls (frameEvents p k b)).cs = true ∧ (replayLatch ls (frameEvents p k b)).clk = p.clkIdle ∧
    (replayLatch ls (frameEvents p k b)).data = b.getLsbD 0 ∧
    (p.dcBinding = .dedicated → (replayLatch ls (frameEvents p k b)).dc = dcLevel p k) ∧
    (replayLatch ls (frameEvents p k b)).rst = ls.rst

/-- Frame decoding (inferred in R79 from R78 and R104): clocked at either edge, the frame of `kind` and `b` gives nine
samples that decode to `kind`, `b` and the data level the frame began with; on a shared data line the leading level is
the kind (log 21). -/
def Obligations.FrameDecodesToTheByteSent : Prop :=
  ∀ (p : Params) (k : Kind) (b : Byte) (ls : Lines),
    (clockSamples (!p.clkIdle) ls (frameEvents p k b)).length = 9 ∧
    clockSamples p.clkIdle ls (frameEvents p k b) = clockSamples (!p.clkIdle) ls (frameEvents p k b) ∧
    (p.dcBinding = .dedicated → frameDecode p ls (frameEvents p k b) = some (k, b, ls.data)) ∧
    (p.dcBinding = .sharedWithData → frameDecode p ls (frameEvents p k b) = some (k, b, dcLevel p k))

/-- XMIT (R107, the spec's decision D26): one frame. The shadow clauses, made while the lines are outputs, are R128 (the spec's
decision D25), with a shared select line by log 10: a Command makes the shadow phase unknown, a Data moves
the shadow's cursor from home. -/
def Obligations.XmitSendsOneFrame : Prop :=
  ∀ (k : Kind) (b : Byte) (s : State), ∃ t, exec (.xmit k b) s = .next t ∧
    DrivesOnly s t (frameEvents s.params k b) ∧
    (k = .command → ShadowBecomes s t { s.shadow with phase := .unknown }) ∧
    (k = .data → ShadowBecomes s t { s.shadow with home := false })

/-- R108: the reset line low, a hold, the reset line high, a hold; nothing else on the lines. The last clause is the shadow
update of R108's pseudocode, which R128 (the spec's decision D25) makes only while the lines are outputs; with a shared
select line, which lines those are is log 10. -/
def Obligations.HardResetPulsesTheResetLine : Prop :=
  (∀ w : ReqWord, fieldOp w = 0x21 → decode w = .ok .hardReset) ∧
  ∀ s : State, ∃ t, exec .hardReset s = .next t ∧
    DrivesOnly s t [.w .rst false, .h 10, .w .rst true, .h 10] ∧ t.latch = { s.latch with rst := true } ∧
    ShadowBecomes s t { phase := .reset, contrast := none, addr := none, home := true }

/-! ### The controller protocol -/

/-- R120, R121: INIT makes the lines outputs, clears the framebuffer and sends its frames in the one order of the rule,
whatever state it is issued in. The last clause is the shadow the updates of R120's pseudocode leave, which R128 (the spec's
decision D25) makes because the lines are outputs after step 0; with a shared select line, that clause and
`linesAreOutputs t` rest on log 10. -/
def Obligations.InitRunsTheBringUpSequence : Prop :=
  (∀ w : ReqWord, fieldOp w = 0x01 → decode w = .ok .init) ∧
  ∀ s : State, ∃ t, exec .init s = .next t ∧ Completed s t ∧ Emits s t (initEvents s.params) ∧
    (∀ a, a < 864 → Memory.read t.fb a = 0) ∧ (∀ a, 864 ≤ a → Memory.read t.fb a = Memory.read s.fb a) ∧
    t.rsp = s.rsp ∧ t.responses = s.responses ∧ linesAreOutputs t = true ∧
    t.shadow = { phase := .allPixelsOn, contrast := some s.params.defaultContrast, addr := some .horizontal,
                 home := true }

/-- The counts of one INIT (inferred in R127 from R120, R105 and R190), by the kind of event, in every state: 25377 line
writes, two of them on the reset line, one of each level; 2 holds, both of 10 ms; 5 output events with a dedicated select
line and 4 without. -/
def Obligations.InitEventCounts : Prop :=
  ∀ s : State, ∃ t evs, exec .init s = .next t ∧ t.trace = s.trace ++ evs ∧
    evs.countP isWrite = 25377 ∧ evs.countP isHold = 2 ∧
    evs.countP (fun e => e == .h 10) = 2 ∧
    evs.countP (fun e => e == .w .rst false) = 1 ∧ evs.countP (fun e => e == .w .rst true) = 1 ∧
    (s.params.dcBinding = .dedicated → evs.countP isOutput = 5) ∧
    (s.params.dcBinding = .sharedWithData → evs.countP isOutput = 4)

/-- What one INIT sends, decoded from the lines frame by frame (inferred in R127 from R120; frame decoding R79, log 21):
nine Command bytes, 864 Data bytes 0x00, two Command bytes, in this order. -/
def Obligations.InitOnTheWire : Prop :=
  ∀ (p : Params) (ls : Lines),
    (sentFrames p ls (initEvents p)).map (Option.map fun f => (f.1, f.2.1)) =
      ([p.cmd.powerPumpOn, p.cmd.addrHorizontal, p.cmd.tempcompOn, p.cmd.frameFreq80, p.cmd.oscInternal,
        p.cmd.pumpMultX2, p.cmd.bias, p.cmd.vopHi, p.cmd.vopLoBase ||| p.defaultContrast.zeroExtend 8].map
          fun b => some (Kind.command, b))
      ++ List.replicate 864 (some (Kind.data, 0x00#8))
      ++ [some (.command, p.cmd.displayOn), some (.command, p.cmd.displayAllOn)]

/-- R122: one Command frame with the byte CMD.DISPLAY_ON. -/
def Obligations.DisplayOnSendsItsCommand : Prop :=
  (∀ w : ReqWord, fieldOp w = 0x02 → decode w = .ok .displayOn) ∧
  ∀ s : State, ∃ t, exec .displayOn s = .next t ∧
    DrivesOnly s t (frameEvents s.params .command s.params.cmd.displayOn)

/-- R124: one Command frame with the byte CMD.DISPLAY_OFF. -/
def Obligations.DisplayOffSendsItsCommand : Prop :=
  (∀ w : ReqWord, fieldOp w = 0x03 → decode w = .ok .displayOff) ∧
  ∀ s : State, ∃ t, exec .displayOff s = .next t ∧
    DrivesOnly s t (frameEvents s.params .command s.params.cmd.displayOff)

/-- R125: one Command frame, DISPLAY_NORMAL with INVERT_FLAG OR'd in exactly when the operand is not 0. -/
def Obligations.InvertDisplaySendsItsCommand : Prop :=
  (∀ w : ReqWord, fieldOp w = 0x05 → decode w = .ok (.invertDisplay (fieldE w))) ∧
  ∀ (state : Byte) (s : State), ∃ t, exec (.invertDisplay state) s = .next t ∧
    (state ≠ 0 →
      DrivesOnly s t (frameEvents s.params .command (s.params.cmd.displayNormal ||| s.params.cmd.invertFlag))) ∧
    (state = 0 → DrivesOnly s t (frameEvents s.params .command s.params.cmd.displayNormal))

/-- The rows of R128 for DISPLAY_ON, DISPLAY_OFF and INVERT_DISPLAY (the spec's decision D25; with a shared select line, log
10): the phase each leaves, by the phase it finds; the rest of the shadow stays. -/
def Obligations.DisplayModeRequestsMoveThePhase : Prop :=
  (∀ s : State, ∃ t, exec .displayOn s = .next t ∧
    (s.shadow.phase ∈ [Phase.configured, .normal, .allPixelsOn, .inverted, .off] →
      ShadowBecomes s t { s.shadow with phase := .normal }) ∧
    (s.shadow.phase ∈ [Phase.reset, .unknown] → ShadowBecomes s t { s.shadow with phase := .unknown })) ∧
  (∀ s : State, ∃ t, exec .displayOff s = .next t ∧
    (s.shadow.phase ∈ [Phase.configured, .normal, .allPixelsOn, .inverted, .off] →
      ShadowBecomes s t { s.shadow with phase := .off }) ∧
    (s.shadow.phase ∈ [Phase.reset, .unknown] → ShadowBecomes s t { s.shadow with phase := .unknown })) ∧
  (∀ (state : Byte) (s : State), ∃ t, exec (.invertDisplay state) s = .next t ∧
    (s.shadow.phase ∈ [Phase.normal, .allPixelsOn, .inverted] → state ≠ 0 →
      ShadowBecomes s t { s.shadow with phase := .inverted }) ∧
    (s.shadow.phase ∈ [Phase.normal, .allPixelsOn, .inverted] → state = 0 →
      ShadowBecomes s t { s.shadow with phase := .normal }) ∧
    (s.shadow.phase = .off → ShadowBecomes s t s.shadow) ∧
    (s.shadow.phase ∈ [Phase.reset, .configured, .unknown] →
      ShadowBecomes s t { s.shadow with phase := .unknown }))

/-- While any line is not an output no request but INIT moves the shadow (R128, the spec's decision D25; with a shared select
line, log 10). -/
def Obligations.ShadowWaitsForTheLines : Prop :=
  ∀ (i : Instr) (s t : State), i ≠ .init → linesAreOutputs s = false → exec i s = .next t → t.shadow = s.shadow

/-- Under the constraints of R81 (decision D12) the two INVERT_DISPLAY commands are different bytes. -/
def Obligations.InvertCommandsDiffer : Prop :=
  ∀ (p : Params) (state : Byte), p.wellFormed = true → state ≠ 0 → invertByte p state ≠ invertByte p 0

/-- R123: the VOP-high command, then VOP-low with the low nibble of the value. The last clause is the shadow update of R123's
pseudocode, which R128 (the spec's decision D25) makes only while the lines are outputs; with a shared select line, which
lines those are is log 10. -/
def Obligations.SetContrastSendsTwoCommands : Prop :=
  (∀ w : ReqWord, fieldOp w = 0x04 → decode w = .ok (.setContrast (fieldE w))) ∧
  ∀ (value : Byte) (s : State), ∃ t, exec (.setContrast value) s = .next t ∧
    DrivesOnly s t (frameEvents s.params .command s.params.cmd.vopHi
      ++ frameEvents s.params .command (s.params.cmd.vopLoBase ||| (value &&& 0x0F#8))) ∧
    ShadowBecomes s t { s.shadow with contrast := some (value.extractLsb' 0 4) }

/-- SET_XY (R126, the spec's decisions D20, D26): three Command frames for a column and a page in range, X low nibble, X high
nibble, page, and the shadow's cursor is no longer at home; out of range a silent no-op (row N-7 of R201). Where the table
XHI is shorter than the column, which `Params.wellFormed` excludes, that the missing nibble reads 0 is the model's choice of
log 9. The shadow clause, made while the lines are outputs, is R128 (the spec's decision D25), with a shared select line by
log 10. -/
def Obligations.SetXySendsThreeCommandsInRange : Prop :=
  (∀ (x page : Nat) (s : State), x < 96 → page < 9 →
    ∃ t, exec (.setXy x page) s = .next t ∧
    DrivesOnly s t
      (frameEvents s.params .command (s.params.cmd.xaddrLoBase ||| BitVec.ofNat 8 (x % 16))
        ++ frameEvents s.params .command (s.params.cmd.xaddrHiBase ||| (s.params.xhi.getD x 0).zeroExtend 8)
        ++ frameEvents s.params .command (s.params.cmd.yaddrBase ||| BitVec.ofNat 8 page)) ∧
    ShadowBecomes s t { s.shadow with home := false }) ∧
  (∀ (x page : Int) (s : State), (x < 0 ∨ 96 ≤ x ∨ page < 0 ∨ 9 ≤ page) →
    ∃ t, exec (.setXy x page) s = .next t ∧ ChangesNothing s t)

/-! ### The framebuffer -/

/-- R150: every byte of the framebuffer 0, and no hardware write. -/
def Obligations.ClearDisplayZeroesTheFramebuffer : Prop :=
  (∀ w : ReqWord, fieldOp w = 0x06 → decode w = .ok .clearDisplay) ∧
  ∀ s : State, ∃ t, exec .clearDisplay s = .next t ∧ ChangesFbOnly s t ∧
    (∀ a, a < 864 → Memory.read t.fb a = 0) ∧ (∀ a, 864 ≤ a → Memory.read t.fb a = Memory.read s.fb a)

/-- R151: every byte 0xFF when the colour is not 0, else 0x00, the bits of rows 65 to 71 too; with colour 0 it is
CLEAR_DISPLAY. -/
def Obligations.FillScreenFillsEveryByte : Prop :=
  (∀ w : ReqWord, fieldOp w = 0x11 → decode w = .ok (.fillScreen (fieldE w))) ∧
  (∀ s : State, exec (.fillScreen 0) s = exec .clearDisplay s) ∧
  ∀ (color : Byte) (s : State), ∃ t, exec (.fillScreen color) s = .next t ∧ ChangesFbOnly s t ∧
    (color ≠ 0 → ∀ a, a < 864 → Memory.read t.fb a = 0xFF) ∧ (color = 0 → ∀ a, a < 864 → Memory.read t.fb a = 0) ∧
    (∀ a, 864 ≤ a → Memory.read t.fb a = Memory.read s.fb a)

/-- R153, R154: in range, bit `y % 8` of the byte at `x + (y / 8) * 96` is set or cleared, the other seven bits of the byte
and every other byte are kept; out of range nothing changes. -/
def Obligations.DrawPixelSetsOrClearsOneBit : Prop :=
  (∀ w : ReqWord, fieldOp w = 0x0C →
    decode w = .ok (.drawPixel (fieldA w).toInt (fieldB w).toInt (fieldE w))) ∧
  (∀ (x y : Nat) (color : Byte) (s : State), x < 96 → y < 65 →
    ∃ t, exec (.drawPixel x y color) s = .next t ∧ ChangesFbOnly s t ∧
      (Memory.read t.fb (x + y / 8 * 96)).getLsbD (y % 8) = (color != 0) ∧
      (∀ k, k < 8 → k ≠ y % 8 →
        (Memory.read t.fb (x + y / 8 * 96)).getLsbD k = (Memory.read s.fb (x + y / 8 * 96)).getLsbD k) ∧
      ∀ a, a ≠ x + y / 8 * 96 → Memory.read t.fb a = Memory.read s.fb a) ∧
  (∀ (x y : Int) (color : Byte) (s : State), (x < 0 ∨ 96 ≤ x ∨ y < 0 ∨ 65 ≤ y) →
    ∃ t, exec (.drawPixel x y color) s = .next t ∧ ChangesNothing s t)

/-- GET_PIXEL (R155, decision D17): the bit DRAW_PIXEL writes, as 0 or 1, and 0 out of range. -/
def Obligations.GetPixelRespondsTheBit : Prop :=
  (∀ (x y : Nat) (s : State), x < 96 → y < 65 →
    ∃ t, exec (.getPixel x y) s = .next t ∧
      RespondsOnly s t (if (Memory.read s.fb (x + y / 8 * 96)).getLsbD (y % 8) then 1 else 0)) ∧
  (∀ (x y : Int) (s : State), (x < 0 ∨ 96 ≤ x ∨ y < 0 ∨ 65 ≤ y) →
    ∃ t, exec (.getPixel x y) s = .next t ∧ RespondsOnly s t 0)

/-- R156: GET_BUFFER_SIZE responds 864 in any state. -/
def Obligations.GetBufferSizeResponds864 : Prop :=
  (∀ w : ReqWord, fieldOp w = 0x08 → decode w = .ok .getBufferSize) ∧
  ∀ s : State, ∃ t, exec .getBufferSize s = .next t ∧ RespondsOnly s t 864

/-- FB_READ (R157, decision D19): the byte, zero-extended; 0 beyond the framebuffer. -/
def Obligations.FbReadRespondsTheByte : Prop :=
  ∀ (index : Nat) (s : State), ∃ t, exec (.fbRead index) s = .next t ∧
    (index < 864 → RespondsOnly s t ((Memory.read s.fb index).zeroExtend 16)) ∧
    (864 ≤ index → RespondsOnly s t 0)

/-- FB_WRITE (R158, decision D19): the whole byte is replaced and no other; nothing beyond the framebuffer. -/
def Obligations.FbWriteReplacesTheByte : Prop :=
  ∀ (index : Nat) (byte : Byte) (s : State), ∃ t, exec (.fbWrite index byte) s = .next t ∧ ChangesFbOnly s t ∧
    (index < 864 → Memory.read t.fb index = byte ∧ ∀ a, a ≠ index → Memory.read t.fb a = Memory.read s.fb a) ∧
    (864 ≤ index → t.fb = s.fb)

/-- The round trip of R155, from R153 and R154: what DRAW_PIXEL wrote, GET_PIXEL responds. -/
def Obligations.DrawnPixelReadsBack : Prop :=
  ∀ (x y : Nat) (color : Byte) (s : State), x < 96 → y < 65 →
    ∃ t u, exec (.drawPixel x y color) s = .next t ∧ exec (.getPixel x y) t = .next u ∧
      u.rsp = (if color = 0 then 0 else 1)

/-- After FILL_SCREEN every pixel of the display reads as its colour, and after CLEAR_DISPLAY as unlit (R150, R151,
R155). -/
def Obligations.FilledScreenReadsFilled : Prop :=
  ∀ (x y : Nat) (color : Byte) (s : State), x < 96 → y < 65 →
    (∃ t u, exec (.fillScreen color) s = .next t ∧ exec (.getPixel x y) t = .next u ∧
      u.rsp = (if color = 0 then 0 else 1)) ∧
    (∃ t u, exec .clearDisplay s = .next t ∧ exec (.getPixel x y) t = .next u ∧ u.rsp = 0)

/-- PUSH_BUFFER (R159, decisions D18, D19): a prefix is copied and the rest kept when the size fits, nothing otherwise. -/
def Obligations.PushBufferCopiesAPrefix : Prop :=
  (∀ (buf : List Byte) (size : Nat) (s : State), size ≤ 864 → size ≤ buf.length →
    ∃ t, execAll (pushBuffer buf size) s = .next t ∧
      (∀ a, a < size → Memory.read t.fb a = buf.getD a 0) ∧
      (∀ a, size ≤ a → Memory.read t.fb a = Memory.read s.fb a) ∧
      t.trace = s.trace ∧ t.latch = s.latch ∧ t.oe = s.oe ∧ t.shadow = s.shadow ∧ t.rsp = s.rsp) ∧
  (∀ (buf : List Byte) (size : Nat) (s : State), 864 < size → execAll (pushBuffer buf size) s = .next s)

/-- GET_BUFFER (R160, decision D19): the 864 bytes in index order, and the framebuffer unchanged. -/
def Obligations.GetBufferReadsTheFramebuffer : Prop :=
  ∀ s : State, ∃ t, execAll getBuffer s = .next t ∧ collectedBuffer t = fbBytes s ∧ t.fb = s.fb ∧
    t.trace = s.trace ∧ t.latch = s.latch ∧ t.oe = s.oe ∧ t.shadow = s.shadow

/-- Pushing back what was read leaves the framebuffer as it was (95_test_vectors.md E7; R159, R160, decision D19). -/
def Obligations.PushingWhatWasReadChangesNothing : Prop :=
  ∀ s : State, Memory.wf s.fb → ∃ t u, execAll getBuffer s = .next t ∧
    execAll (pushBuffer (collectedBuffer t) 864) t = .next u ∧ u.fb = s.fb

/-! ### Shapes -/

/-- R180: exactly the pixels of the outline that lie on the display take the colour; nothing else changes. -/
def Obligations.DrawRectPaintsTheOutline : Prop :=
  (∀ w : ReqWord, fieldOp w = 0x0D →
    decode w = .ok (.drawRect (fieldA w).toInt (fieldB w).toInt (fieldC w).toInt (fieldD w).toInt (fieldE w))) ∧
  ∀ (x y w h : Int) (color : Byte) (s : State), (Instr.drawRect x y w h color).wellFormed = true →
    ∃ t, exec (.drawRect x y w h color) s = .next t ∧ ChangesFbOnly s t ∧ Painted s t (OnOutline x y w h) color

/-- R181: exactly the pixels of the box that lie on the display take the colour; nothing else changes. -/
def Obligations.FillRectPaintsTheBox : Prop :=
  (∀ w : ReqWord, fieldOp w = 0x0E →
    decode w = .ok (.fillRect (fieldA w).toInt (fieldB w).toInt (fieldC w).toInt (fieldD w).toInt (fieldE w))) ∧
  ∀ (x y w h : Int) (color : Byte) (s : State), (Instr.fillRect x y w h color).wellFormed = true →
    ∃ t, exec (.fillRect x y w h color) s = .next t ∧ ChangesFbOnly s t ∧ Painted s t (InBox x y w h) color

/-- R182: DRAW_SQUARE(x, y, a, color) is DRAW_RECT(x, y, a, a, color). -/
def Obligations.DrawSquareIsASquareDrawRect : Prop :=
  (∀ w : ReqWord, fieldOp w = 0x0F →
    decode w = .ok (.drawSquare (fieldA w).toInt (fieldB w).toInt (fieldC w).toInt (fieldE w))) ∧
  ∀ (x y a : Int) (color : Byte) (s : State), (Instr.drawSquare x y a color).wellFormed = true →
    ∃ t, exec (.drawSquare x y a color) s = .next t ∧ exec (.drawRect x y a a color) s = .next t ∧
      ChangesFbOnly s t ∧ Painted s t (OnOutline x y a a) color

/-- R183: FILL_SQUARE(x, y, a, color) is FILL_RECT(x, y, a, a, color). -/
def Obligations.FillSquareIsASquareFillRect : Prop :=
  (∀ w : ReqWord, fieldOp w = 0x10 →
    decode w = .ok (.fillSquare (fieldA w).toInt (fieldB w).toInt (fieldC w).toInt (fieldE w))) ∧
  ∀ (x y a : Int) (color : Byte) (s : State), (Instr.fillSquare x y a color).wellFormed = true →
    ∃ t, exec (.fillSquare x y a color) s = .next t ∧ exec (.fillRect x y a a color) s = .next t ∧
      ChangesFbOnly s t ∧ Painted s t (InBox x y a a) color

/-- The pixel counts of R180 and R181: from a clear framebuffer, a box inside the display with both sides above 2 lights
`2w + 2h - 4` pixels as an outline and `w * h` filled. -/
def Obligations.RectanglePixelCounts : Prop :=
  ∀ (x y w h : Nat) (color : Byte) (s : State), color ≠ 0 → 2 < w → 2 < h → x + w ≤ 96 → y + h ≤ 65 →
    (∀ a, Memory.read s.fb a = 0) →
    (∃ t, exec (.drawRect x y w h color) s = .next t ∧
      ((Finset.range 96 ×ˢ Finset.range 72).filter fun q => storedBit t q.1 q.2 = true).card = 2 * w + 2 * h - 4) ∧
    (∃ t, exec (.fillRect x y w h color) s = .next t ∧
      ((Finset.range 96 ×ˢ Finset.range 72).filter fun q => storedBit t q.1 q.2 = true).card = w * h)

/-! ### The flush -/

/-- R190: pages 0 to 8, and within each page columns 0 to 95, every byte as one Data frame; nothing else changes. -/
def Obligations.DisplayStreamsTheFramebuffer : Prop :=
  (∀ w : ReqWord, fieldOp w = 0x07 → decode w = .ok .display) ∧
  ∀ s : State, ∃ t, exec .display s = .next t ∧
    DrivesOnly s t ((List.range 9).flatMap fun page => (List.range 96).flatMap fun col =>
      frameEvents s.params .data (Memory.read s.fb (col + page * 96))) ∧ t.shadow = s.shadow

/-- What a flush puts on the lines with a dedicated select line, decoded frame by frame (inferred in R193 from R190 and
R106): frame `n` is a Data frame of `FB[n]`, and the data level at its leading pulse is bit 0 of the byte before it, for
frame 0 the level left before the flush. -/
def Obligations.DisplayOnTheWire : Prop :=
  ∀ s : State, s.params.dcBinding = .dedicated → ∃ t evs, exec .display s = .next t ∧ t.trace = s.trace ++ evs ∧
    sentFrames s.params s.latch evs = (List.range 864).map fun n =>
      some (Kind.data, Memory.read s.fb n,
        if n = 0 then s.latch.data else (Memory.read s.fb (n - 1)).getLsbD 0)

/-! ### Rules of the whole machine -/

/-- The working registers' values between requests matter to nothing (R18, decision D32): whatever they hold, a request has
the same outcome.
That the working registers left are the same draw of free values in both runs is the model's choice of log 5. -/
def Obligations.WorkingRegistersDoNotMatter : Prop :=
  ∀ (i : Instr) (s : State) (q : Sequencer), exec i { s with seq := q } = exec i s

/-- The shadow and the trace are specification-only (R25, R26, decisions D24, D25): no request's effect on anything else
depends on them, and the events it appends do not.
That the working registers left are the same draw of free values in both runs is the model's choice of log 5. -/
def Obligations.ShadowAndTraceFlowNowhere : Prop :=
  ∀ (i : Instr) (s t : State) (sh : Shadow) (tr : List Event), exec i s = .next t →
    ∃ t' evs, exec i { s with shadow := sh, trace := tr } = .next t' ∧
      { t' with shadow := t.shadow, trace := t.trace } = t ∧ t.trace = s.trace ++ evs ∧ t'.trace = tr ++ evs

/-- R131 and R24: what a request puts on the lines depends on the request, the parameters and the framebuffer alone, and a
request issued twice in a row sends the same events twice. -/
def Obligations.NoCommandIsSuppressed : Prop :=
  (∀ (i : Instr) (s s' t t' : State), s'.params = s.params → (∀ a, a < 864 → Memory.read s'.fb a = Memory.read s.fb a) →
    exec i s = .next t → exec i s' = .next t' →
    ∃ evs, t.trace = s.trace ++ evs ∧ t'.trace = s'.trace ++ evs) ∧
  (∀ (i : Instr) (s t u : State), exec i s = .next t → exec i t = .next u →
    ∃ evs, t.trace = s.trace ++ evs ∧ u.trace = t.trace ++ evs)

/-- Every request appends its events to the trace, and the latches and output enables move exactly as those say (R14, R15,
R25). -/
def Obligations.LinesMoveOnlyByTracedEvents : Prop :=
  ∀ (i : Instr) (s t : State), exec i s = .next t → ∃ evs, Emits s t evs

/-- Only INIT makes a line an output, nothing makes one an input again, and no request brings the phase back to
`Uninitialized` (R15, R32, R101, decision D9). -/
def Obligations.NoWayBackToUninitialized : Prop :=
  ∀ (i : Instr) (s t : State), exec i s = .next t →
    (i ≠ .init → t.oe = s.oe) ∧ (∀ l, Lines.get s.oe l = true → Lines.get t.oe l = true) ∧
    (s.shadow.phase ≠ .uninitialized → t.shadow.phase ≠ .uninitialized)

/-- Until INIT has run, every pin stays undriven and the shadow as it is, whatever is transmitted (R16, R130, R233, decisions
D9, D10, D25). -/
def Obligations.BeforeInitNothingReachesTheController : Prop :=
  ∀ (i : Instr) (s t : State), i ≠ .init → (∀ l, Lines.get s.oe l = false) → exec i s = .next t →
    (∀ l, pinLevel t l = none) ∧ t.shadow = s.shadow

/-- Only GET_PIXEL, FB_READ and GET_BUFFER_SIZE respond; every other request leaves the response register (R22, decision
D29). -/
def Obligations.OnlyThreeRequestsRespond : Prop :=
  ∀ (i : Instr) (s t : State), exec i s = .next t →
    (respondingRequest i = false → t.rsp = s.rsp ∧ t.responses = s.responses) ∧
    (respondingRequest i = true → t.responses = s.responses ++ [t.rsp])

/-- R152: the framebuffer operations and the shapes put nothing on the lines and leave latches, output enables and shadow;
and INIT erases what they drew. -/
def Obligations.FramebufferRequestsAreSilent : Prop :=
  (∀ (i : Instr) (s t : State), framebufferRequest i = true → exec i s = .next t →
    t.trace = s.trace ∧ t.latch = s.latch ∧ t.oe = s.oe ∧ t.shadow = s.shadow) ∧
  (∀ (i : Instr) (s t u : State), framebufferRequest i = true → exec i s = .next t → exec .init t = .next u →
    ∀ a, a < 864 → Memory.read u.fb a = 0)

/-- R45: no request writes outside the framebuffer's 864 bytes, and none's events or responses depend on anything read
outside them.
That the working registers left are the same draw of free values in both runs is the model's choice of log 5. -/
def Obligations.NoAccessOutsideTheFramebuffer : Prop :=
  (∀ (i : Instr) (s t : State) (a : Nat), 864 ≤ a → exec i s = .next t → Memory.read t.fb a = Memory.read s.fb a) ∧
  (∀ (i : Instr) (s t : State) (m : Memory), (∀ a, a < 864 → Memory.read m a = Memory.read s.fb a) →
    exec i s = .next t → ∃ n, exec i { s with fb := m } = .next { t with fb := n } ∧
      ∀ a, a < 864 → Memory.read n a = Memory.read t.fb a)

/-- R55 and the flush's snapshot: only CLEAR_DISPLAY, FILL_SCREEN, DRAW_PIXEL, FB_WRITE, the shapes and INIT change the
framebuffer; every transmitting or responding request leaves every byte (R40, R52). -/
def Obligations.OnlyWritingRequestsChangeTheFramebuffer : Prop :=
  ∀ (i : Instr) (s t : State), (framebufferRequest i = false ∨ respondingRequest i = true) → i ≠ .init →
    exec i s = .next t → t.fb = s.fb

/-- With the select line shared (R13, decision D4) no request writes a level to DC, makes it an output or moves its
latch. -/
def Obligations.SharedSelectLineIsNeverWritten : Prop :=
  ∀ (i : Instr) (s t : State), s.params.dcBinding = .sharedWithData → exec i s = .next t →
    ∃ evs, t.trace = s.trace ++ evs ∧ (∀ v, Event.w .dc v ∉ evs) ∧ Event.oe .dc ∉ evs ∧
      t.latch.dc = s.latch.dc ∧ t.oe.dc = s.oe.dc

/-- R12 and R4: no step changes the binding or the parameters. -/
def Obligations.ConstructionNeverChanges : Prop :=
  ∀ s t : State, step s = .next t → t.binding = s.binding ∧ t.params = s.params
end

