-- ==== Sys2Proof/Laws/Decode.lean ====
section
/-!
SUPPORT. The fields of a packed request word are what was packed (R70), and the operands survive their fields (R71).
-/
namespace Sys2Proof

/-! ### Fields -/

theorem fieldOp_packWord (op : Byte) (a b c d : Word16) (e : Byte) : fieldOp (packWord op a b c d e) = op := by
  ext i hi
  simp only [fieldOp, packWord, BitVec.getElem_extractLsb', BitVec.getLsbD_append]
  repeat' split
  all_goals first
    | omega
    | (rw [BitVec.getLsbD_eq_getElem (by omega)]; congr 1; omega)

theorem fieldA_packWord (op : Byte) (a b c d : Word16) (e : Byte) : fieldA (packWord op a b c d e) = a := by
  ext i hi
  simp only [fieldA, packWord, BitVec.getElem_extractLsb', BitVec.getLsbD_append]
  repeat' split
  all_goals first
    | omega
    | (rw [BitVec.getLsbD_eq_getElem (by omega)]; congr 1; omega)

theorem fieldB_packWord (op : Byte) (a b c d : Word16) (e : Byte) : fieldB (packWord op a b c d e) = b := by
  ext i hi
  simp only [fieldB, packWord, BitVec.getElem_extractLsb', BitVec.getLsbD_append]
  repeat' split
  all_goals first
    | omega
    | (rw [BitVec.getLsbD_eq_getElem (by omega)]; congr 1; omega)

theorem fieldC_packWord (op : Byte) (a b c d : Word16) (e : Byte) : fieldC (packWord op a b c d e) = c := by
  ext i hi
  simp only [fieldC, packWord, BitVec.getElem_extractLsb', BitVec.getLsbD_append]
  repeat' split
  all_goals first
    | omega
    | (rw [BitVec.getLsbD_eq_getElem (by omega)]; congr 1; omega)

theorem fieldD_packWord (op : Byte) (a b c d : Word16) (e : Byte) : fieldD (packWord op a b c d e) = d := by
  ext i hi
  simp only [fieldD, packWord, BitVec.getElem_extractLsb', BitVec.getLsbD_append]
  repeat' split
  all_goals first
    | omega
    | (rw [BitVec.getLsbD_eq_getElem (by omega)]; congr 1; omega)

theorem fieldE_packWord (op : Byte) (a b c d : Word16) (e : Byte) : fieldE (packWord op a b c d e) = e := by
  ext i hi
  simp only [fieldE, packWord, BitVec.getElem_extractLsb', BitVec.getLsbD_append]
  repeat' split
  all_goals first
    | omega
    | (rw [BitVec.getLsbD_eq_getElem (by omega)]; congr 1; omega)

/-- A word is its fields (R70). -/
theorem packWord_fields (w : ReqWord) :
    packWord (fieldOp w) (fieldA w) (fieldB w) (fieldC w) (fieldD w) (fieldE w) = w := by
  apply BitVec.eq_of_getLsbD_eq
  intro i hi
  simp only [packWord, fieldOp, fieldA, fieldB, fieldC, fieldD, fieldE, BitVec.getLsbD_append,
    BitVec.getLsbD_extractLsb']
  repeat' split
  all_goals
    rw [show decide _ = true from decide_eq_true (by omega), Bool.true_and]
    congr 1
    omega

/-- A mask is applied field by field. -/
theorem packWord_and (op : Byte) (a b c d : Word16) (e : Byte) (op' : Byte) (a' b' c' d' : Word16) (e' : Byte) :
    packWord op a b c d e &&& packWord op' a' b' c' d' e' =
      packWord (op &&& op') (a &&& a') (b &&& b') (c &&& c') (d &&& d') (e &&& e') := by
  simp only [packWord, ← BitVec.and_append]

/-! ### Operands -/

theorem sext16_fieldOfInt {v : Int} (h : inS16 v = true) : sext16 (fieldOfInt v) = v := by
  simp only [inS16, decide_eq_true_eq] at h
  simp only [sext16, fieldOfInt, BitVec.toInt_ofInt]
  exact Int.bmod_eq_of_le (by omega) (by omega)

theorem zext16_fieldOfNat {n : Nat} (h : inU16 n = true) : zext16 (fieldOfNat n) = n := by
  simp only [inU16, decide_eq_true_eq] at h
  simp only [zext16, fieldOfNat, BitVec.toNat_ofNat]
  exact Nat.mod_eq_of_lt h

theorem kindOfField_fieldOfKind (k : Kind) : kindOfField (fieldOfKind k) = k := by
  cases k <;> rfl

theorem inS16_sext16 (v : Word16) : inS16 (sext16 v) = true := by
  have h1 := BitVec.le_toInt v
  have h2 := BitVec.toInt_lt (x := v)
  unfold inS16 sext16
  exact decide_eq_true ⟨by simpa using h1, by simp at h2; omega⟩

theorem inU16_zext16 (v : Word16) : inU16 (zext16 v) = true := by
  have := v.isLt
  exact decide_eq_true this

theorem fieldOfInt_sext16 (v : Word16) : fieldOfInt (sext16 v) = v := BitVec.ofInt_toInt

theorem fieldOfNat_zext16 (v : Word16) : fieldOfNat (zext16 v) = v := by
  simp [fieldOfNat, zext16]

end Sys2Proof
end

