-- ==== Sys2Proof/Laws/Memory.lean ====
section
/-!
SUPPORT. The laws of the framebuffer's cells: a read after a write, the canonical form every operation keeps, and that two
canonical memories which read alike are equal.
-/
namespace Sys2Proof.Machine

@[simp] theorem Memory.read_nil (a : Nat) : Memory.read [] a = 0 := rfl

theorem Memory.read_erase_same (m : Memory) (a : Nat) : Memory.read (Memory.erase m a) a = 0 := by
  induction m with
  | nil => rfl
  | cons c m ih =>
    obtain ⟨b, v⟩ := c
    by_cases h : b = a
    · subst h
      simpa [Memory.erase] using ih
    · have h' : a ≠ b := fun e => h e.symm
      simp only [Memory.erase] at ih
      simp [Memory.erase, Memory.read, h, h', ih]

theorem Memory.read_erase_other (m : Memory) {a b : Nat} (h : b ≠ a) :
    Memory.read (Memory.erase m a) b = Memory.read m b := by
  induction m with
  | nil => rfl
  | cons c m ih =>
    obtain ⟨k, v⟩ := c
    simp only [Memory.erase] at ih
    by_cases hk : k = a
    · subst hk
      simp [Memory.erase, Memory.read, h, ih]
    · by_cases hb : b = k
      · simp [Memory.erase, Memory.read, hk, hb]
      · simp [Memory.erase, Memory.read, hk, hb, ih]

theorem Memory.read_insert_same (m : Memory) (a : Nat) (v : Byte) (h : ∀ c ∈ m, c.1 ≠ a) :
    Memory.read (Memory.insert m a v) a = v := by
  induction m with
  | nil => simp [Memory.insert, Memory.read]
  | cons c m ih =>
    obtain ⟨b, u⟩ := c
    have hb : a ≠ b := fun e => h (b, u) (by simp) e.symm
    by_cases hlt : a < b
    · simp [Memory.insert, Memory.read, hlt]
    · simpa [Memory.insert, Memory.read, hlt, hb] using ih fun c hc => h c (by simp [hc])

theorem Memory.read_insert_other (m : Memory) {a b : Nat} (v : Byte) (h : b ≠ a) :
    Memory.read (Memory.insert m a v) b = Memory.read m b := by
  induction m with
  | nil => simp [Memory.insert, Memory.read, h]
  | cons c m ih =>
    obtain ⟨k, u⟩ := c
    by_cases hlt : a < k
    · simp [Memory.insert, Memory.read, hlt, h]
    · by_cases hk : b = k <;> simp [Memory.insert, Memory.read, hlt, hk, ih]

theorem Memory.mem_erase_ne (m : Memory) (a : Nat) : ∀ c ∈ Memory.erase m a, c.1 ≠ a := by
  intro c hc
  simpa [Memory.erase] using (List.mem_filter.mp hc).2

/-- A read after a write to the same index gives the byte written. -/
@[simp] theorem Memory.read_write_same (m : Memory) (a : Nat) (v : Byte) :
    Memory.read (Memory.write m a v) a = v := by
  unfold Memory.write
  split
  · next h => rw [Memory.read_erase_same, h]
  · exact Memory.read_insert_same _ _ _ (Memory.mem_erase_ne m a)

/-- A write leaves every other index alone. -/
theorem Memory.read_write_other (m : Memory) {a b : Nat} (v : Byte) (h : b ≠ a) :
    Memory.read (Memory.write m a v) b = Memory.read m b := by
  unfold Memory.write
  split
  · exact Memory.read_erase_other m h
  · rw [Memory.read_insert_other _ v h, Memory.read_erase_other m h]

theorem Memory.read_write (m : Memory) (a b : Nat) (v : Byte) :
    Memory.read (Memory.write m a v) b = if b = a then v else Memory.read m b := by
  split
  · next h => rw [h, Memory.read_write_same]
  · next h => exact Memory.read_write_other m v h

/-! ### The canonical form -/

theorem Memory.wf_nil : Memory.wf [] := ⟨List.Pairwise.nil, by simp⟩

theorem Memory.wf_erase {m : Memory} (a : Nat) (h : Memory.wf m) : Memory.wf (Memory.erase m a) :=
  ⟨h.1.filter _, fun c hc => h.2 c (List.mem_filter.mp hc).1⟩

theorem Memory.mem_insert {m : Memory} {a : Nat} {v : Byte} {c : Host.Cell}
    (h : c ∈ Memory.insert m a v) : c = (a, v) ∨ c ∈ m := by
  induction m with
  | nil => simpa [Memory.insert] using h
  | cons d m ih =>
    obtain ⟨b, u⟩ := d
    by_cases hlt : a < b
    · simpa [Memory.insert, hlt] using h
    · simp only [Memory.insert, hlt, if_false, List.mem_cons] at h
      rcases h with h | h
      · exact .inr (by simp [h])
      · rcases ih h with h | h
        · exact .inl h
        · exact .inr (by simp [h])

theorem Memory.wf_insert {m : Memory} {a : Nat} {v : Byte} (h : Memory.wf m) (hm : ∀ c ∈ m, c.1 ≠ a)
    (ha : a < Config.capacity) (hv : v ≠ 0) : Memory.wf (Memory.insert m a v) := by
  induction m with
  | nil => simpa [Memory.insert, Memory.wf] using ⟨hv, ha⟩
  | cons d m ih =>
    obtain ⟨b, u⟩ := d
    obtain ⟨hp, hall⟩ := h
    rw [List.pairwise_cons] at hp
    have hb : b ≠ a := hm (b, u) (by simp)
    by_cases hlt : a < b
    · simp only [Memory.insert, hlt, if_true]
      refine ⟨List.pairwise_cons.mpr ⟨?_, List.pairwise_cons.mpr hp⟩, ?_⟩
      · intro c hc
        rcases List.mem_cons.mp hc with rfl | hc
        · exact hlt
        · exact Nat.lt_trans hlt (hp.1 c hc)
      · intro c hc
        rcases List.mem_cons.mp hc with rfl | hc
        · exact ⟨hv, ha⟩
        · exact hall c hc
    · simp only [Memory.insert, hlt, if_false]
      have hm' := ih ⟨hp.2, fun c hc => hall c (by simp [hc])⟩ fun c hc => hm c (by simp [hc])
      refine ⟨List.pairwise_cons.mpr ⟨?_, hm'.1⟩, ?_⟩
      · intro c hc
        rcases Memory.mem_insert hc with rfl | hc
        · exact Nat.lt_of_le_of_ne (Nat.le_of_not_lt hlt) hb
        · exact hp.1 c hc
      · intro c hc
        rcases List.mem_cons.mp hc with rfl | hc
        · exact hall _ (by simp)
        · exact hm'.2 c hc

/-- Every write inside the framebuffer keeps the canonical form. -/
theorem Memory.wf_write {m : Memory} {a : Nat} (v : Byte) (h : Memory.wf m) (ha : a < Config.capacity) :
    Memory.wf (Memory.write m a v) := by
  unfold Memory.write
  split
  · exact Memory.wf_erase a h
  · next hv => exact Memory.wf_insert (Memory.wf_erase a h) (Memory.mem_erase_ne m a) ha hv

/-! ### Filling -/

theorem Memory.read_foldl_write (is : List Nat) (m : Memory) (v : Byte) (a : Nat) :
    Memory.read (is.foldl (fun m i => Memory.write m i v) m) a = if a ∈ is then v else Memory.read m a := by
  induction is generalizing m with
  | nil => simp
  | cons i is ih =>
    rw [List.foldl_cons, ih, Memory.read_write]
    by_cases h1 : a ∈ is <;> by_cases h2 : a = i <;> simp [h1, h2]

/-- A fill reads as its byte at every index of the framebuffer and as before elsewhere. -/
theorem Memory.read_fill (m : Memory) (v : Byte) (a : Nat) :
    Memory.read (Memory.fill m v) a = if a < 864 then v else Memory.read m a := by
  unfold Memory.fill
  simp [Memory.read_foldl_write, Config.capacity]

theorem Memory.wf_foldl_write (is : List Nat) {m : Memory} (v : Byte) (h : Memory.wf m)
    (his : ∀ i ∈ is, i < Config.capacity) : Memory.wf (is.foldl (fun m i => Memory.write m i v) m) := by
  induction is generalizing m with
  | nil => exact h
  | cons i is ih =>
    exact ih (Memory.wf_write v h (his i (by simp))) fun j hj => his j (by simp [hj])

theorem Memory.wf_fill {m : Memory} (v : Byte) (h : Memory.wf m) : Memory.wf (Memory.fill m v) := by
  unfold Memory.fill
  exact Memory.wf_foldl_write _ v h fun i hi => by simpa using hi

/-! ### Equal contents, equal memories -/

theorem Memory.read_of_lt_all {m : Memory} {a : Nat} (h : ∀ c ∈ m, a < c.1) : Memory.read m a = 0 := by
  induction m with
  | nil => rfl
  | cons d m ih =>
    obtain ⟨b, u⟩ := d
    have hb : a ≠ b := Nat.ne_of_lt (h (b, u) (by simp))
    simpa [Memory.read, hb] using ih fun c hc => h c (by simp [hc])

/-- Two canonical memories that read alike at every index are the same list. -/
theorem Memory.eq_of_read_eq {m n : Memory} (hm : Memory.wf m) (hn : Memory.wf n)
    (h : ∀ a, Memory.read m a = Memory.read n a) : m = n := by
  induction m generalizing n with
  | nil =>
    cases n with
    | nil => rfl
    | cons d n =>
      obtain ⟨b, u⟩ := d
      exact absurd (by simpa [Memory.read] using (h b).symm) (hn.2 (b, u) (by simp)).1
  | cons c m ih =>
    obtain ⟨a, v⟩ := c
    have hmp := List.pairwise_cons.mp hm.1
    cases n with
    | nil => exact absurd (by simpa [Memory.read] using h a) (hm.2 (a, v) (by simp)).1
    | cons d n =>
      obtain ⟨b, u⟩ := d
      have hnp := List.pairwise_cons.mp hn.1
      have hv : v ≠ 0 := (hm.2 (a, v) (by simp)).1
      have hu : u ≠ 0 := (hn.2 (b, u) (by simp)).1
      have hab : a = b := by
        rcases Nat.lt_trichotomy a b with hlt | heq | hlt
        · refine absurd ?_ hv
          have := h a
          rw [show Memory.read ((b, u) :: n) a = 0 from Memory.read_of_lt_all (by
            intro c hc
            rcases List.mem_cons.mp hc with rfl | hc
            · exact hlt
            · exact Nat.lt_trans hlt (hnp.1 c hc))] at this
          simpa [Memory.read] using this
        · exact heq
        · refine absurd ?_ hu
          have := h b
          rw [show Memory.read ((a, v) :: m) b = 0 from Memory.read_of_lt_all (by
            intro c hc
            rcases List.mem_cons.mp hc with rfl | hc
            · exact hlt
            · exact Nat.lt_trans hlt (hmp.1 c hc))] at this
          simpa [Memory.read] using this.symm
      subst hab
      have huv : v = u := by simpa [Memory.read] using h a
      subst huv
      have hrest : m = n := by
        refine ih ⟨hmp.2, fun c hc => hm.2 c (by simp [hc])⟩ ⟨hnp.2, fun c hc => hn.2 c (by simp [hc])⟩ ?_
        intro k
        by_cases hk : k = a
        · subst hk
          rw [Memory.read_of_lt_all hmp.1, Memory.read_of_lt_all hnp.1]
        · simpa [Memory.read, hk] using h k
      rw [hrest]

end Sys2Proof.Machine
end

