-- ==== Sys2Proof/Laws/State.lean ====
section
/-!
SUPPORT. For each state update, what it makes of each field: the lemmas a later proof uses instead of unfolding an update.
-/
namespace Sys2Proof.Machine

variable (s : State)

/-! ### `accept` -/

@[simp] theorem accept_params (w : ReqWord) (rest : List ReqWord) :
    (accept w rest s).params = s.params := rfl
@[simp] theorem accept_binding (w : ReqWord) (rest : List ReqWord) :
    (accept w rest s).binding = s.binding := rfl
@[simp] theorem accept_fb (w : ReqWord) (rest : List ReqWord) :
    (accept w rest s).fb = s.fb := rfl
@[simp] theorem accept_latch (w : ReqWord) (rest : List ReqWord) :
    (accept w rest s).latch = s.latch := rfl
@[simp] theorem accept_oe (w : ReqWord) (rest : List ReqWord) :
    (accept w rest s).oe = s.oe := rfl
@[simp] theorem accept_busy (w : ReqWord) (rest : List ReqWord) :
    (accept w rest s).busy = true := rfl
@[simp] theorem accept_rsp (w : ReqWord) (rest : List ReqWord) :
    (accept w rest s).rsp = s.rsp := rfl
@[simp] theorem accept_seq (w : ReqWord) (rest : List ReqWord) :
    (accept w rest s).seq = { s.seq with op := fieldOp w, a := fieldA w, b := fieldB w, c := fieldC w, d := fieldD w, e := fieldE w } := rfl
@[simp] theorem accept_shadow (w : ReqWord) (rest : List ReqWord) :
    (accept w rest s).shadow = s.shadow := rfl
@[simp] theorem accept_trace (w : ReqWord) (rest : List ReqWord) :
    (accept w rest s).trace = s.trace := rfl
@[simp] theorem accept_program (w : ReqWord) (rest : List ReqWord) :
    (accept w rest s).program = rest := rfl
@[simp] theorem accept_responses (w : ReqWord) (rest : List ReqWord) :
    (accept w rest s).responses = s.responses := rfl
@[simp] theorem accept_draws (w : ReqWord) (rest : List ReqWord) :
    (accept w rest s).draws = s.draws := rfl

/-! ### `retire` -/

@[simp] theorem retire_params :
    (retire s).params = s.params := rfl
@[simp] theorem retire_binding :
    (retire s).binding = s.binding := rfl
@[simp] theorem retire_fb :
    (retire s).fb = s.fb := rfl
@[simp] theorem retire_latch :
    (retire s).latch = s.latch := rfl
@[simp] theorem retire_oe :
    (retire s).oe = s.oe := rfl
@[simp] theorem retire_busy :
    (retire s).busy = false := rfl
@[simp] theorem retire_rsp :
    (retire s).rsp = s.rsp := rfl
@[simp] theorem retire_seq :
    (retire s).seq = unspecifiedSeq s.draws := rfl
@[simp] theorem retire_shadow :
    (retire s).shadow = s.shadow := rfl
@[simp] theorem retire_trace :
    (retire s).trace = s.trace := rfl
@[simp] theorem retire_program :
    (retire s).program = s.program := rfl
@[simp] theorem retire_responses :
    (retire s).responses = s.responses := rfl
@[simp] theorem retire_draws :
    (retire s).draws = s.draws + 1 := rfl

/-! ### `lineWrite` -/

@[simp] theorem lineWrite_params (l : Line) (v : Bool) :
    (lineWrite l v s).params = s.params := rfl
@[simp] theorem lineWrite_binding (l : Line) (v : Bool) :
    (lineWrite l v s).binding = s.binding := rfl
@[simp] theorem lineWrite_fb (l : Line) (v : Bool) :
    (lineWrite l v s).fb = s.fb := rfl
@[simp] theorem lineWrite_latch (l : Line) (v : Bool) :
    (lineWrite l v s).latch = Lines.set s.latch (physicalLine s.params l) v := rfl
@[simp] theorem lineWrite_oe (l : Line) (v : Bool) :
    (lineWrite l v s).oe = s.oe := rfl
@[simp] theorem lineWrite_busy (l : Line) (v : Bool) :
    (lineWrite l v s).busy = s.busy := rfl
@[simp] theorem lineWrite_rsp (l : Line) (v : Bool) :
    (lineWrite l v s).rsp = s.rsp := rfl
@[simp] theorem lineWrite_seq (l : Line) (v : Bool) :
    (lineWrite l v s).seq = s.seq := rfl
@[simp] theorem lineWrite_shadow (l : Line) (v : Bool) :
    (lineWrite l v s).shadow = s.shadow := rfl
@[simp] theorem lineWrite_trace (l : Line) (v : Bool) :
    (lineWrite l v s).trace = s.trace ++ [.w (physicalLine s.params l) v] := rfl
@[simp] theorem lineWrite_program (l : Line) (v : Bool) :
    (lineWrite l v s).program = s.program := rfl
@[simp] theorem lineWrite_responses (l : Line) (v : Bool) :
    (lineWrite l v s).responses = s.responses := rfl
@[simp] theorem lineWrite_draws (l : Line) (v : Bool) :
    (lineWrite l v s).draws = s.draws := rfl

/-! ### `lineOutput` -/

@[simp] theorem lineOutput_params (l : Line) :
    (lineOutput l s).params = s.params := rfl
@[simp] theorem lineOutput_binding (l : Line) :
    (lineOutput l s).binding = s.binding := rfl
@[simp] theorem lineOutput_fb (l : Line) :
    (lineOutput l s).fb = s.fb := rfl
@[simp] theorem lineOutput_latch (l : Line) :
    (lineOutput l s).latch = s.latch := rfl
@[simp] theorem lineOutput_oe (l : Line) :
    (lineOutput l s).oe = Lines.set s.oe l true := rfl
@[simp] theorem lineOutput_busy (l : Line) :
    (lineOutput l s).busy = s.busy := rfl
@[simp] theorem lineOutput_rsp (l : Line) :
    (lineOutput l s).rsp = s.rsp := rfl
@[simp] theorem lineOutput_seq (l : Line) :
    (lineOutput l s).seq = s.seq := rfl
@[simp] theorem lineOutput_shadow (l : Line) :
    (lineOutput l s).shadow = s.shadow := rfl
@[simp] theorem lineOutput_trace (l : Line) :
    (lineOutput l s).trace = s.trace ++ [.oe l] := rfl
@[simp] theorem lineOutput_program (l : Line) :
    (lineOutput l s).program = s.program := rfl
@[simp] theorem lineOutput_responses (l : Line) :
    (lineOutput l s).responses = s.responses := rfl
@[simp] theorem lineOutput_draws (l : Line) :
    (lineOutput l s).draws = s.draws := rfl

/-! ### `hold` -/

@[simp] theorem hold_params (ms : Nat) :
    (hold ms s).params = s.params := rfl
@[simp] theorem hold_binding (ms : Nat) :
    (hold ms s).binding = s.binding := rfl
@[simp] theorem hold_fb (ms : Nat) :
    (hold ms s).fb = s.fb := rfl
@[simp] theorem hold_latch (ms : Nat) :
    (hold ms s).latch = s.latch := rfl
@[simp] theorem hold_oe (ms : Nat) :
    (hold ms s).oe = s.oe := rfl
@[simp] theorem hold_busy (ms : Nat) :
    (hold ms s).busy = s.busy := rfl
@[simp] theorem hold_rsp (ms : Nat) :
    (hold ms s).rsp = s.rsp := rfl
@[simp] theorem hold_seq (ms : Nat) :
    (hold ms s).seq = s.seq := rfl
@[simp] theorem hold_shadow (ms : Nat) :
    (hold ms s).shadow = s.shadow := rfl
@[simp] theorem hold_trace (ms : Nat) :
    (hold ms s).trace = s.trace ++ [.h ms] := rfl
@[simp] theorem hold_program (ms : Nat) :
    (hold ms s).program = s.program := rfl
@[simp] theorem hold_responses (ms : Nat) :
    (hold ms s).responses = s.responses := rfl
@[simp] theorem hold_draws (ms : Nat) :
    (hold ms s).draws = s.draws := rfl

/-! ### `updateShadow` -/

@[simp] theorem updateShadow_params (f : Shadow → Shadow) :
    (updateShadow f s).params = s.params := rfl
@[simp] theorem updateShadow_binding (f : Shadow → Shadow) :
    (updateShadow f s).binding = s.binding := rfl
@[simp] theorem updateShadow_fb (f : Shadow → Shadow) :
    (updateShadow f s).fb = s.fb := rfl
@[simp] theorem updateShadow_latch (f : Shadow → Shadow) :
    (updateShadow f s).latch = s.latch := rfl
@[simp] theorem updateShadow_oe (f : Shadow → Shadow) :
    (updateShadow f s).oe = s.oe := rfl
@[simp] theorem updateShadow_busy (f : Shadow → Shadow) :
    (updateShadow f s).busy = s.busy := rfl
@[simp] theorem updateShadow_rsp (f : Shadow → Shadow) :
    (updateShadow f s).rsp = s.rsp := rfl
@[simp] theorem updateShadow_seq (f : Shadow → Shadow) :
    (updateShadow f s).seq = s.seq := rfl
@[simp] theorem updateShadow_shadow (f : Shadow → Shadow) :
    (updateShadow f s).shadow = if linesAreOutputs s then f s.shadow else s.shadow := rfl
@[simp] theorem updateShadow_trace (f : Shadow → Shadow) :
    (updateShadow f s).trace = s.trace := rfl
@[simp] theorem updateShadow_program (f : Shadow → Shadow) :
    (updateShadow f s).program = s.program := rfl
@[simp] theorem updateShadow_responses (f : Shadow → Shadow) :
    (updateShadow f s).responses = s.responses := rfl
@[simp] theorem updateShadow_draws (f : Shadow → Shadow) :
    (updateShadow f s).draws = s.draws := rfl

/-! ### `loadShift` -/

@[simp] theorem loadShift_params (k : Kind) (b : Byte) :
    (loadShift k b s).params = s.params := rfl
@[simp] theorem loadShift_binding (k : Kind) (b : Byte) :
    (loadShift k b s).binding = s.binding := rfl
@[simp] theorem loadShift_fb (k : Kind) (b : Byte) :
    (loadShift k b s).fb = s.fb := rfl
@[simp] theorem loadShift_latch (k : Kind) (b : Byte) :
    (loadShift k b s).latch = s.latch := rfl
@[simp] theorem loadShift_oe (k : Kind) (b : Byte) :
    (loadShift k b s).oe = s.oe := rfl
@[simp] theorem loadShift_busy (k : Kind) (b : Byte) :
    (loadShift k b s).busy = s.busy := rfl
@[simp] theorem loadShift_rsp (k : Kind) (b : Byte) :
    (loadShift k b s).rsp = s.rsp := rfl
@[simp] theorem loadShift_seq (k : Kind) (b : Byte) :
    (loadShift k b s).seq = { s.seq with shreg := b, kind := k, bitcnt := 8 } := rfl
@[simp] theorem loadShift_shadow (k : Kind) (b : Byte) :
    (loadShift k b s).shadow = s.shadow := rfl
@[simp] theorem loadShift_trace (k : Kind) (b : Byte) :
    (loadShift k b s).trace = s.trace := rfl
@[simp] theorem loadShift_program (k : Kind) (b : Byte) :
    (loadShift k b s).program = s.program := rfl
@[simp] theorem loadShift_responses (k : Kind) (b : Byte) :
    (loadShift k b s).responses = s.responses := rfl
@[simp] theorem loadShift_draws (k : Kind) (b : Byte) :
    (loadShift k b s).draws = s.draws := rfl

/-! ### `fbStore` -/

@[simp] theorem fbStore_params (a : Nat) (v : Byte) :
    (fbStore a v s).params = s.params := rfl
@[simp] theorem fbStore_binding (a : Nat) (v : Byte) :
    (fbStore a v s).binding = s.binding := rfl
@[simp] theorem fbStore_fb (a : Nat) (v : Byte) :
    (fbStore a v s).fb = Memory.write s.fb a v := rfl
@[simp] theorem fbStore_latch (a : Nat) (v : Byte) :
    (fbStore a v s).latch = s.latch := rfl
@[simp] theorem fbStore_oe (a : Nat) (v : Byte) :
    (fbStore a v s).oe = s.oe := rfl
@[simp] theorem fbStore_busy (a : Nat) (v : Byte) :
    (fbStore a v s).busy = s.busy := rfl
@[simp] theorem fbStore_rsp (a : Nat) (v : Byte) :
    (fbStore a v s).rsp = s.rsp := rfl
@[simp] theorem fbStore_seq (a : Nat) (v : Byte) :
    (fbStore a v s).seq = s.seq := rfl
@[simp] theorem fbStore_shadow (a : Nat) (v : Byte) :
    (fbStore a v s).shadow = s.shadow := rfl
@[simp] theorem fbStore_trace (a : Nat) (v : Byte) :
    (fbStore a v s).trace = s.trace := rfl
@[simp] theorem fbStore_program (a : Nat) (v : Byte) :
    (fbStore a v s).program = s.program := rfl
@[simp] theorem fbStore_responses (a : Nat) (v : Byte) :
    (fbStore a v s).responses = s.responses := rfl
@[simp] theorem fbStore_draws (a : Nat) (v : Byte) :
    (fbStore a v s).draws = s.draws := rfl

/-! ### `fbFill` -/

@[simp] theorem fbFill_params (v : Byte) :
    (fbFill v s).params = s.params := by
  simp only [fbFill]
@[simp] theorem fbFill_binding (v : Byte) :
    (fbFill v s).binding = s.binding := by
  simp only [fbFill]
@[simp] theorem fbFill_fb (v : Byte) :
    (fbFill v s).fb = Memory.fill s.fb v := by
  simp only [fbFill]
@[simp] theorem fbFill_latch (v : Byte) :
    (fbFill v s).latch = s.latch := by
  simp only [fbFill]
@[simp] theorem fbFill_oe (v : Byte) :
    (fbFill v s).oe = s.oe := by
  simp only [fbFill]
@[simp] theorem fbFill_busy (v : Byte) :
    (fbFill v s).busy = s.busy := by
  simp only [fbFill]
@[simp] theorem fbFill_rsp (v : Byte) :
    (fbFill v s).rsp = s.rsp := by
  simp only [fbFill]
@[simp] theorem fbFill_seq (v : Byte) :
    (fbFill v s).seq = s.seq := by
  simp only [fbFill]
@[simp] theorem fbFill_shadow (v : Byte) :
    (fbFill v s).shadow = s.shadow := by
  simp only [fbFill]
@[simp] theorem fbFill_trace (v : Byte) :
    (fbFill v s).trace = s.trace := by
  simp only [fbFill]
@[simp] theorem fbFill_program (v : Byte) :
    (fbFill v s).program = s.program := by
  simp only [fbFill]
@[simp] theorem fbFill_responses (v : Byte) :
    (fbFill v s).responses = s.responses := by
  simp only [fbFill]
@[simp] theorem fbFill_draws (v : Byte) :
    (fbFill v s).draws = s.draws := by
  simp only [fbFill]

/-! ### `respond` -/

@[simp] theorem respond_params (v : Word16) :
    (respond v s).params = s.params := rfl
@[simp] theorem respond_binding (v : Word16) :
    (respond v s).binding = s.binding := rfl
@[simp] theorem respond_fb (v : Word16) :
    (respond v s).fb = s.fb := rfl
@[simp] theorem respond_latch (v : Word16) :
    (respond v s).latch = s.latch := rfl
@[simp] theorem respond_oe (v : Word16) :
    (respond v s).oe = s.oe := rfl
@[simp] theorem respond_busy (v : Word16) :
    (respond v s).busy = s.busy := rfl
@[simp] theorem respond_rsp (v : Word16) :
    (respond v s).rsp = v := rfl
@[simp] theorem respond_seq (v : Word16) :
    (respond v s).seq = s.seq := rfl
@[simp] theorem respond_shadow (v : Word16) :
    (respond v s).shadow = s.shadow := rfl
@[simp] theorem respond_trace (v : Word16) :
    (respond v s).trace = s.trace := rfl
@[simp] theorem respond_program (v : Word16) :
    (respond v s).program = s.program := rfl
@[simp] theorem respond_responses (v : Word16) :
    (respond v s).responses = s.responses ++ [v] := rfl
@[simp] theorem respond_draws (v : Word16) :
    (respond v s).draws = s.draws := rfl

/-! ### `startAddress` -/

@[simp] theorem startAddress_params :
    (startAddress s).params = s.params := rfl
@[simp] theorem startAddress_binding :
    (startAddress s).binding = s.binding := rfl
@[simp] theorem startAddress_fb :
    (startAddress s).fb = s.fb := rfl
@[simp] theorem startAddress_latch :
    (startAddress s).latch = s.latch := rfl
@[simp] theorem startAddress_oe :
    (startAddress s).oe = s.oe := rfl
@[simp] theorem startAddress_busy :
    (startAddress s).busy = s.busy := rfl
@[simp] theorem startAddress_rsp :
    (startAddress s).rsp = s.rsp := rfl
@[simp] theorem startAddress_seq :
    (startAddress s).seq = { s.seq with page := 0, col := 0 } := rfl
@[simp] theorem startAddress_shadow :
    (startAddress s).shadow = s.shadow := rfl
@[simp] theorem startAddress_trace :
    (startAddress s).trace = s.trace := rfl
@[simp] theorem startAddress_program :
    (startAddress s).program = s.program := rfl
@[simp] theorem startAddress_responses :
    (startAddress s).responses = s.responses := rfl
@[simp] theorem startAddress_draws :
    (startAddress s).draws = s.draws := rfl

/-! ### `present` -/

@[simp] theorem present_params (ws : List ReqWord) :
    (present ws s).params = s.params := rfl
@[simp] theorem present_binding (ws : List ReqWord) :
    (present ws s).binding = s.binding := rfl
@[simp] theorem present_fb (ws : List ReqWord) :
    (present ws s).fb = s.fb := rfl
@[simp] theorem present_latch (ws : List ReqWord) :
    (present ws s).latch = s.latch := rfl
@[simp] theorem present_oe (ws : List ReqWord) :
    (present ws s).oe = s.oe := rfl
@[simp] theorem present_busy (ws : List ReqWord) :
    (present ws s).busy = s.busy := rfl
@[simp] theorem present_rsp (ws : List ReqWord) :
    (present ws s).rsp = s.rsp := rfl
@[simp] theorem present_seq (ws : List ReqWord) :
    (present ws s).seq = s.seq := rfl
@[simp] theorem present_shadow (ws : List ReqWord) :
    (present ws s).shadow = s.shadow := rfl
@[simp] theorem present_trace (ws : List ReqWord) :
    (present ws s).trace = s.trace := rfl
@[simp] theorem present_program (ws : List ReqWord) :
    (present ws s).program = s.program ++ ws := rfl
@[simp] theorem present_responses (ws : List ReqWord) :
    (present ws s).responses = s.responses := rfl
@[simp] theorem present_draws (ws : List ReqWord) :
    (present ws s).draws = s.draws := rfl

/-! ### `withFetchWord` -/

@[simp] theorem withFetchWord_params (n w : Nat) :
    (State.withFetchWord s n w).params = s.params := rfl
@[simp] theorem withFetchWord_binding (n w : Nat) :
    (State.withFetchWord s n w).binding = s.binding := rfl
@[simp] theorem withFetchWord_fb (n w : Nat) :
    (State.withFetchWord s n w).fb = s.fb := rfl
@[simp] theorem withFetchWord_latch (n w : Nat) :
    (State.withFetchWord s n w).latch = s.latch := rfl
@[simp] theorem withFetchWord_oe (n w : Nat) :
    (State.withFetchWord s n w).oe = s.oe := rfl
@[simp] theorem withFetchWord_busy (n w : Nat) :
    (State.withFetchWord s n w).busy = false := rfl
@[simp] theorem withFetchWord_rsp (n w : Nat) :
    (State.withFetchWord s n w).rsp = s.rsp := rfl
@[simp] theorem withFetchWord_seq (n w : Nat) :
    (State.withFetchWord s n w).seq = s.seq := rfl
@[simp] theorem withFetchWord_shadow (n w : Nat) :
    (State.withFetchWord s n w).shadow = s.shadow := rfl
@[simp] theorem withFetchWord_trace (n w : Nat) :
    (State.withFetchWord s n w).trace = s.trace := rfl
@[simp] theorem withFetchWord_program (n w : Nat) :
    (State.withFetchWord s n w).program = tableWord n w :: s.program := rfl
@[simp] theorem withFetchWord_responses (n w : Nat) :
    (State.withFetchWord s n w).responses = s.responses := rfl
@[simp] theorem withFetchWord_draws (n w : Nat) :
    (State.withFetchWord s n w).draws = s.draws := rfl

/-! ### `blockReset` -/

@[simp] theorem blockReset_params :
    (blockReset s).params = s.params := rfl
@[simp] theorem blockReset_binding :
    (blockReset s).binding = s.binding := rfl
@[simp] theorem blockReset_fb :
    (blockReset s).fb = [] := rfl
@[simp] theorem blockReset_latch :
    (blockReset s).latch = s.params.lineResetLevel := rfl
@[simp] theorem blockReset_oe :
    (blockReset s).oe = Lines.low := rfl
@[simp] theorem blockReset_busy :
    (blockReset s).busy = false := rfl
@[simp] theorem blockReset_rsp :
    (blockReset s).rsp = 0 := rfl
@[simp] theorem blockReset_seq :
    (blockReset s).seq = Sequencer.atReset := rfl
@[simp] theorem blockReset_shadow :
    (blockReset s).shadow = Shadow.atReset := rfl
@[simp] theorem blockReset_trace :
    (blockReset s).trace = [] := rfl
@[simp] theorem blockReset_program :
    (blockReset s).program = s.program := rfl
@[simp] theorem blockReset_responses :
    (blockReset s).responses = [] := rfl
@[simp] theorem blockReset_draws :
    (blockReset s).draws = s.draws := rfl

/-! ### `State.construct` -/

@[simp] theorem construct_params (p : Params) (b : Binding) :
    (State.construct p b).params = p := rfl
@[simp] theorem construct_binding (p : Params) (b : Binding) :
    (State.construct p b).binding = b := rfl
@[simp] theorem construct_fb (p : Params) (b : Binding) :
    (State.construct p b).fb = [] := rfl
@[simp] theorem construct_latch (p : Params) (b : Binding) :
    (State.construct p b).latch = p.lineResetLevel := rfl
@[simp] theorem construct_oe (p : Params) (b : Binding) :
    (State.construct p b).oe = Lines.low := rfl
@[simp] theorem construct_busy (p : Params) (b : Binding) :
    (State.construct p b).busy = false := rfl
@[simp] theorem construct_rsp (p : Params) (b : Binding) :
    (State.construct p b).rsp = 0 := rfl
@[simp] theorem construct_seq (p : Params) (b : Binding) :
    (State.construct p b).seq = Sequencer.atReset := rfl
@[simp] theorem construct_shadow (p : Params) (b : Binding) :
    (State.construct p b).shadow = Shadow.atReset := rfl
@[simp] theorem construct_trace (p : Params) (b : Binding) :
    (State.construct p b).trace = [] := rfl
@[simp] theorem construct_program (p : Params) (b : Binding) :
    (State.construct p b).program = [] := rfl
@[simp] theorem construct_responses (p : Params) (b : Binding) :
    (State.construct p b).responses = [] := rfl
@[simp] theorem construct_draws (p : Params) (b : Binding) :
    (State.construct p b).draws = 0 := rfl

end Sys2Proof.Machine
end

