-- ==== Sys2Proof/Laws/Drawing.lean ====
section
/-!
SUPPORT. What one plotted pixel does to the stored bits (R154), and what the loops of the shapes do with it (R180, R181,
R184).
-/
namespace Sys2Proof.Machine

/-! ### One pixel -/

theorem getLsbD_pixelMask {y : Int} {k : Nat} (hk : k < 8) :
    (pixelMask y).getLsbD k = decide (k = pixelBit y) := by
  have hb : pixelBit y < 8 := Nat.mod_lt _ (by omega)
  simp only [pixelMask, BitVec.getLsbD_shiftLeft, BitVec.getLsbD_one, hk, decide_true, Bool.true_and]
  by_cases h : k = pixelBit y
  · simp [h]
  · by_cases h' : k < pixelBit y
    · simp [h, h']
    · have : ¬ (k - pixelBit y = 0) := by omega
      simp [h, h', this]

/-- A plotted pixel changes the framebuffer at most. -/
theorem plotPixel_eq (x y : Int) (color : Byte) (s : State) :
    ∃ m, plotPixel x y color s = { s with fb := m } ∧ (Memory.wf s.fb → Memory.wf m) := by
  unfold plotPixel
  by_cases h : inRange x y = true
  · have hlt : pixelIndex x y < Config.capacity := by
      simp only [inRange, decide_eq_true_eq] at h
      simp only [pixelIndex, byteIndex, Config.capacity]
      omega
    rw [if_pos h]
    split
    · exact ⟨_, rfl, fun hm => Memory.wf_write _ hm hlt⟩
    · exact ⟨_, rfl, fun hm => Memory.wf_write _ hm hlt⟩
  · rw [if_neg h]
    exact ⟨s.fb, rfl, id⟩

@[simp] theorem plotPixel_seq (x y : Int) (color : Byte) (s : State) : (plotPixel x y color s).seq = s.seq := by
  obtain ⟨m, h, -⟩ := plotPixel_eq x y color s
  rw [h]

/-- What the framebuffer reads as after a plotted pixel that is in range. -/
theorem read_plotPixel_of_inRange {x y : Int} (h : inRange x y = true) (color : Byte) (s : State) (a : Nat) :
    Memory.read (plotPixel x y color s).fb a =
      if a = pixelIndex x y then
        (if truthy color then Memory.read s.fb a ||| pixelMask y else Memory.read s.fb a &&& ~~~pixelMask y)
      else Memory.read s.fb a := by
  unfold plotPixel
  rw [if_pos h]
  split <;> rw [fbStore_fb, Memory.read_write] <;> split <;> simp_all [fbByte]

theorem plotPixel_of_not_inRange {x y : Int} (h : ¬ inRange x y = true) (color : Byte) (s : State) :
    plotPixel x y color s = s := by
  unfold plotPixel
  rw [if_neg h]

/-- Exactly the pixel plotted takes the colour, when it is on the display (R154). -/
theorem painted_plotPixel (x y : Int) (color : Byte) (s : State) :
    Painted s (plotPixel x y color s) (fun px py => px = x ∧ py = y) color := by
  by_cases h : inRange x y = true
  · have hr := read_plotPixel_of_inRange h color s
    simp only [inRange, decide_eq_true_eq] at h
    have hidx : pixelIndex x y = x.toNat + y.toNat / 8 * 96 := rfl
    have hbit : pixelBit y = y.toNat % 8 := rfl
    refine ⟨?_, ?_, ?_, ?_⟩
    · rintro px row hx hrow ⟨rfl, rfl⟩
      have hx0 : ((px : Int)).toNat = px := by omega
      have hy0 : ((row : Int)).toNat = row := by omega
      have hlt : row % 8 < 8 := Nat.mod_lt _ (by omega)
      unfold storedBit
      rw [hr, hidx, hx0, hy0, if_pos rfl]
      by_cases hc : color = 0#8
      · simp [truthy, hc, getLsbD_pixelMask hlt, hbit, hlt]
      · simp [truthy, hc, getLsbD_pixelMask hlt, hbit]
    · intro px row hx hrow hne
      have hlt : row % 8 < 8 := Nat.mod_lt _ (by omega)
      unfold storedBit
      rw [hr, hidx]
      split
      · next heq =>
        have hk : ¬ row % 8 = pixelBit y := by
          rw [hbit]
          intro e
          exact hne ⟨by omega, by omega⟩
        split
        · rw [BitVec.getLsbD_or, getLsbD_pixelMask hlt, decide_eq_false hk, Bool.or_false]
        · rw [BitVec.getLsbD_and, BitVec.getLsbD_not, getLsbD_pixelMask hlt, decide_eq_false hk]
          simp [hlt]
      · rfl
    · intro px row hx h65 h72
      have hlt : row % 8 < 8 := Nat.mod_lt _ (by omega)
      unfold storedBit
      rw [hr, hidx]
      split
      · next heq =>
        have hk : ¬ row % 8 = pixelBit y := by
          rw [hbit]
          omega
        split
        · rw [BitVec.getLsbD_or, getLsbD_pixelMask hlt, decide_eq_false hk, Bool.or_false]
        · rw [BitVec.getLsbD_and, BitVec.getLsbD_not, getLsbD_pixelMask hlt, decide_eq_false hk]
          simp [hlt]
      · rfl
    · intro a ha
      rw [hr, if_neg]
      rw [hidx]
      omega
  · rw [plotPixel_of_not_inRange h]
    refine ⟨?_, fun _ _ _ _ _ => rfl, fun _ _ _ _ _ => rfl, fun _ _ => rfl⟩
    rintro px row hx hrow ⟨rfl, rfl⟩
    exact absurd (by simp [inRange]; omega) h

/-! ### Painting more -/

theorem painted_refl (s : State) (color : Byte) : Painted s s (fun _ _ => False) color :=
  ⟨fun _ _ _ _ h => h.elim, fun _ _ _ _ _ => rfl, fun _ _ _ _ _ => rfl, fun _ _ => rfl⟩

/-- Painting depends on the framebuffers alone. -/
theorem Painted.of_fb_eq {s t s' t' : State} {P : Int → Int → Prop} {color : Byte} (h : Painted s t P color)
    (hs : s'.fb = s.fb) (ht : t'.fb = t.fb) : Painted s' t' P color := by
  simpa only [Painted, storedBit, hs, ht] using h

theorem Painted.congr {s t : State} {P Q : Int → Int → Prop} {color : Byte} (h : Painted s t P color)
    (hPQ : ∀ px py, P px py ↔ Q px py) : Painted s t Q color := by
  obtain ⟨h1, h2, h3, h4⟩ := h
  exact ⟨fun x row hx hr hq => h1 x row hx hr ((hPQ _ _).mpr hq),
    fun x row hx hr hq => h2 x row hx hr fun hp => hq ((hPQ _ _).mp hp), h3, h4⟩

/-- Painting twice with one colour paints the union. -/
theorem Painted.trans {s t u : State} {P Q : Int → Int → Prop} {color : Byte} (h : Painted s t P color)
    (k : Painted t u Q color) : Painted s u (fun px py => P px py ∨ Q px py) color := by
  obtain ⟨h1, h2, h3, h4⟩ := h
  obtain ⟨k1, k2, k3, k4⟩ := k
  refine ⟨?_, ?_, ?_, ?_⟩
  · intro x row hx hr hpq
    by_cases hq : Q x row
    · exact k1 x row hx hr hq
    · rw [k2 x row hx hr hq]
      exact h1 x row hx hr (hpq.resolve_right hq)
  · intro x row hx hr hpq
    rw [k2 x row hx hr fun hq => hpq (.inr hq), h2 x row hx hr fun hp => hpq (.inl hp)]
  · intro x row hx hr hr'
    rw [k3 x row hx hr hr', h3 x row hx hr hr']
  · intro a ha
    rw [k4 a ha, h4 a ha]

/-- From `s` to `t` the pixels of `P` were painted, the canonical form was kept, and nothing else but working registers
changed. -/
def DrawsOnly (s t : State) (P : Int → Int → Prop) (color : Byte) : Prop :=
  (∃ m q, t = { s with fb := m, seq := q }) ∧ (Memory.wf s.fb → Memory.wf t.fb) ∧ Painted s t P color

theorem drawsOnly_refl (s : State) (color : Byte) : DrawsOnly s s (fun _ _ => False) color :=
  ⟨⟨s.fb, s.seq, rfl⟩, id, painted_refl s color⟩

theorem DrawsOnly.trans {s t u : State} {P Q : Int → Int → Prop} {color : Byte} (h : DrawsOnly s t P color)
    (k : DrawsOnly t u Q color) : DrawsOnly s u (fun px py => P px py ∨ Q px py) color := by
  obtain ⟨⟨m, q, hm⟩, hw, hp⟩ := h
  obtain ⟨⟨n, r, kn⟩, kw, kp⟩ := k
  exact ⟨⟨n, r, by rw [kn, hm]⟩, fun w => kw (hw w), hp.trans kp⟩

theorem DrawsOnly.congr {s t : State} {P Q : Int → Int → Prop} {color : Byte} (h : DrawsOnly s t P color)
    (hPQ : ∀ px py, P px py ↔ Q px py) : DrawsOnly s t Q color :=
  ⟨h.1, h.2.1, h.2.2.congr hPQ⟩

/-- Setting working registers draws nothing. -/
theorem DrawsOnly.setSeq {s t : State} {P : Int → Int → Prop} {color : Byte} (h : DrawsOnly s t P color)
    (q : Sequencer) : DrawsOnly s { t with seq := q } P color := by
  obtain ⟨⟨m, r, hm⟩, hw, hp⟩ := h
  exact ⟨⟨m, q, by rw [hm]⟩, hw, hp.of_fb_eq rfl rfl⟩

theorem DrawsOnly.ofSeq {s t : State} {P : Int → Int → Prop} {color : Byte} {q : Sequencer}
    (h : DrawsOnly { s with seq := q } t P color) : DrawsOnly s t P color := by
  obtain ⟨⟨m, r, hm⟩, hw, hp⟩ := h
  exact ⟨⟨m, r, by rw [hm]⟩, hw, hp.of_fb_eq rfl rfl⟩

theorem drawsOnly_plotPixel (x y : Int) (color : Byte) (s : State) :
    DrawsOnly s (plotPixel x y color s) (fun px py => px = x ∧ py = y) color := by
  obtain ⟨m, h, hw⟩ := plotPixel_eq x y color s
  exact ⟨⟨m, s.seq, by rw [h]⟩, by rw [h]; exact hw, painted_plotPixel x y color s⟩

/-! ### The loops -/

theorem toInt_ofNat17 {k : Nat} (hk : k < 65536) : (BitVec.ofNat 17 k).toInt = k := by
  rw [BitVec.toInt_eq_toNat_cond]
  simp
  omega

/-- `k` more rounds of a loop on `i` whose register stands at `k0`. -/
theorem times_loopI {body : State → State} {P : Nat → Int → Int → Prop} {color : Byte} {N : Nat}
    {j0 : BitVec 17} (hbody : ∀ s k, k < N → s.seq.i = BitVec.ofNat 17 k → s.seq.j = j0 →
      DrawsOnly s (body s) (P k) color ∧ (body s).seq.i = s.seq.i ∧ (body s).seq.j = s.seq.j) :
    ∀ (n k0 : Nat) (s : State), k0 + n ≤ N → s.seq.i = BitVec.ofNat 17 k0 → s.seq.j = j0 →
      DrawsOnly s (times n (fun s => let s := body s; { s with seq := { s.seq with i := s.seq.i + 1 } }) s)
        (fun px py => ∃ k, k0 ≤ k ∧ k < k0 + n ∧ P k px py) color ∧
      (times n (fun s => let s := body s; { s with seq := { s.seq with i := s.seq.i + 1 } }) s).seq.j = s.seq.j
  | 0, k0, s, _, _, _ => by
    refine ⟨(drawsOnly_refl s color).congr fun px py => ⟨False.elim, ?_⟩, rfl⟩
    rintro ⟨k, h1, h2, -⟩
    omega
  | n + 1, k0, s, hN, hi, h0 => by
    obtain ⟨hd, hi', hj'⟩ := hbody s k0 (by omega) hi h0
    obtain ⟨hrest, hj⟩ := times_loopI hbody n (k0 + 1)
      { body s with seq := { (body s).seq with i := (body s).seq.i + 1 } } (by omega) (by
        simp only [hi', hi]
        apply BitVec.eq_of_toNat_eq
        simp) (by rw [← h0]; exact hj')
    refine ⟨((hd.setSeq _).trans hrest).congr fun px py => ?_, ?_⟩
    · constructor
      · rintro (h | ⟨k, h1, h2, h3⟩)
        · exact ⟨k0, by omega, by omega, h⟩
        · exact ⟨k, by omega, by omega, h3⟩
      · rintro ⟨k, h1, h2, h3⟩
        by_cases hk : k = k0
        · exact .inl (hk ▸ h3)
        · exact .inr ⟨k, by omega, by omega, h3⟩
    · exact hj.trans hj'

/-- A loop on `i` paints what its rounds paint and keeps `j`. -/
theorem drawsOnly_loopI {body : State → State} {P : Nat → Int → Int → Prop} {color : Byte} {n : Nat}
    (s : State) (hbody : ∀ t k, k < n → t.seq.i = BitVec.ofNat 17 k → t.seq.j = s.seq.j →
      DrawsOnly t (body t) (P k) color ∧ (body t).seq.i = t.seq.i ∧ (body t).seq.j = t.seq.j) :
    DrawsOnly s (loopI n body s) (fun px py => ∃ k, k < n ∧ P k px py) color ∧
      (loopI n body s).seq.j = s.seq.j := by
  obtain ⟨h, hj⟩ := times_loopI hbody n 0 { s with seq := { s.seq with i := 0 } } (by omega) rfl rfl
  exact ⟨h.ofSeq.congr fun px py => by simp, hj⟩

/-- `k` more rounds of a loop on `j` whose register stands at `k0`. -/
theorem times_loopJ {body : State → State} {P : Nat → Int → Int → Prop} {color : Byte} {N : Nat}
    (hbody : ∀ s k, k < N → s.seq.j = BitVec.ofNat 17 k →
      DrawsOnly s (body s) (P k) color ∧ (body s).seq.j = s.seq.j) :
    ∀ (n k0 : Nat) (s : State), k0 + n ≤ N → s.seq.j = BitVec.ofNat 17 k0 →
      DrawsOnly s (times n (fun s => let s := body s; { s with seq := { s.seq with j := s.seq.j + 1 } }) s)
        (fun px py => ∃ k, k0 ≤ k ∧ k < k0 + n ∧ P k px py) color
  | 0, k0, s, _, _ => by
    refine (drawsOnly_refl s color).congr fun px py => ⟨False.elim, ?_⟩
    rintro ⟨k, h1, h2, -⟩
    omega
  | n + 1, k0, s, hN, hj => by
    obtain ⟨hd, hj'⟩ := hbody s k0 (by omega) hj
    have hrest := times_loopJ hbody n (k0 + 1)
      { body s with seq := { (body s).seq with j := (body s).seq.j + 1 } } (by omega) (by
        simp only [hj', hj]
        apply BitVec.eq_of_toNat_eq
        simp)
    refine ((hd.setSeq _).trans hrest).congr fun px py => ?_
    constructor
    · rintro (h | ⟨k, h1, h2, h3⟩)
      · exact ⟨k0, by omega, by omega, h⟩
      · exact ⟨k, by omega, by omega, h3⟩
    · rintro ⟨k, h1, h2, h3⟩
      by_cases hk : k = k0
      · exact .inl (hk ▸ h3)
      · exact .inr ⟨k, by omega, by omega, h3⟩

/-- A loop on `j` paints what its rounds paint. -/
theorem drawsOnly_loopJ {body : State → State} {P : Nat → Int → Int → Prop} {color : Byte} {n : Nat}
    (hbody : ∀ s k, k < n → s.seq.j = BitVec.ofNat 17 k →
      DrawsOnly s (body s) (P k) color ∧ (body s).seq.j = s.seq.j) (s : State) :
    DrawsOnly s (loopJ n body s) (fun px py => ∃ k, k < n ∧ P k px py) color :=
  (times_loopJ hbody n 0 { s with seq := { s.seq with j := 0 } } (by omega) rfl).ofSeq.congr fun px py => by simp

/-- The loops of DRAW_RECT paint the outline of the box, clipped to the display (R180, R184). -/
theorem drawsOnly_outline (x y : Int) {w h : Int} (hw : w ≤ 32767) (hh : h ≤ 32767) (color : Byte) (s : State) :
    DrawsOnly s (outline x y w h color s) (OnOutline x y w h) color := by
  unfold outline
  by_cases hpos : 1 ≤ w ∧ 1 ≤ h
  · rw [if_pos hpos]
    obtain ⟨h1, -⟩ := drawsOnly_loopI (n := w.toNat) (color := color)
      (P := fun k px py => (px = x + k ∧ py = y) ∨ (px = x + k ∧ py = y + h - 1))
      (body := fun s => plotPixel (x + s.seq.i.toInt) (y + h - 1) color (plotPixel (x + s.seq.i.toInt) y color s))
      s (by
        intro s k hk hi _
        have hint : s.seq.i.toInt = k := by rw [hi, toInt_ofNat17 (by omega)]
        refine ⟨?_, by simp, by simp⟩
        rw [hint]
        exact (drawsOnly_plotPixel _ _ _ _).trans (drawsOnly_plotPixel _ _ _ _))
    have h2 := drawsOnly_loopJ (n := h.toNat) (color := color)
      (P := fun k px py => (px = x ∧ py = y + k) ∨ (px = x + w - 1 ∧ py = y + k))
      (body := fun s => plotPixel (x + w - 1) (y + s.seq.j.toInt) color (plotPixel x (y + s.seq.j.toInt) color s))
      (by
        intro s k hk hj
        have hint : s.seq.j.toInt = k := by rw [hj, toInt_ofNat17 (by omega)]
        refine ⟨?_, by simp⟩
        rw [hint]
        exact (drawsOnly_plotPixel _ _ _ _).trans (drawsOnly_plotPixel _ _ _ _))
      (loopI w.toNat
        (fun s => plotPixel (x + s.seq.i.toInt) (y + h - 1) color (plotPixel (x + s.seq.i.toInt) y color s)) s)
    refine (h1.trans h2).congr fun px py => ?_
    simp only [OnOutline, InBox]
    constructor
    · rintro (⟨k, hk, h | h⟩ | ⟨k, hk, h | h⟩) <;> omega
    · rintro ⟨⟨hx1, hx2, hy1, hy2⟩, hside⟩
      rcases hside with h | h | h | h
      · exact .inr ⟨(py - y).toNat, by omega, .inl ⟨h, by omega⟩⟩
      · exact .inr ⟨(py - y).toNat, by omega, .inr ⟨h, by omega⟩⟩
      · exact .inl ⟨(px - x).toNat, by omega, .inl ⟨by omega, h⟩⟩
      · exact .inl ⟨(px - x).toNat, by omega, .inr ⟨by omega, h⟩⟩
  · rw [if_neg hpos]
    refine (drawsOnly_refl s color).congr fun px py => ⟨False.elim, ?_⟩
    simp only [OnOutline, InBox]
    omega

/-- The loops of FILL_RECT paint the box, clipped to the display (R181, R184). -/
theorem drawsOnly_box (x y : Int) {w h : Int} (hw : w ≤ 32767) (hh : h ≤ 32767) (color : Byte) (s : State) :
    DrawsOnly s (box x y w h color s) (InBox x y w h) color := by
  unfold box
  by_cases hpos : 1 ≤ w ∧ 1 ≤ h
  · rw [if_pos hpos]
    refine (drawsOnly_loopJ (n := h.toNat) (color := color)
      (P := fun k px py => ∃ l, l < w.toNat ∧ (px = x + (l : Int) ∧ py = y + k)) (fun s k hk hj => ?_) s).congr
        fun px py => ?_
    · refine drawsOnly_loopI (P := fun l px py => px = x + (l : Int) ∧ py = y + k) s fun t l hl hi hj' => ?_
      have hint : t.seq.i.toInt = l := by rw [hi, toInt_ofNat17 (by omega)]
      have hjnt : t.seq.j.toInt = k := by rw [hj', hj, toInt_ofNat17 (by omega)]
      refine ⟨?_, by simp, by simp⟩
      rw [hint, hjnt]
      exact drawsOnly_plotPixel _ _ _ _
    · simp only [InBox]
      constructor
      · rintro ⟨k, hk, l, hl, h⟩
        omega
      · rintro ⟨hx1, hx2, hy1, hy2⟩
        exact ⟨(py - y).toNat, by omega, (px - x).toNat, by omega, by omega⟩
  · rw [if_neg hpos]
    refine (drawsOnly_refl s color).congr fun px py => ⟨False.elim, ?_⟩
    simp only [InBox]
    omega

end Sys2Proof.Machine
end

