-- ==== Sys2Proof/Laws/Lines.lean ====
section
/-!
SUPPORT. What the line operations do: replaying events, one clock pulse, and one transmitted frame (R100 to R105).
-/
namespace Sys2Proof.Machine

@[simp] theorem times_zero (f : State → State) (s : State) : times 0 f s = s := rfl

@[simp] theorem times_succ (n : Nat) (f : State → State) (s : State) : times (n + 1) f s = times n f (f s) := rfl

/-- What every round keeps, all rounds keep. -/
theorem times_induct {P : State → Prop} (f : State → State) (hf : ∀ s, P s → P (f s)) :
    ∀ (n : Nat) (s : State), P s → P (times n f s)
  | 0, _, h => h
  | n + 1, s, h => times_induct f hf n (f s) (hf s h)

/-! ### Replaying events -/

@[simp] theorem replayLatch_nil (ls : Lines) : replayLatch ls [] = ls := rfl
@[simp] theorem replayOutputs_nil (ls : Lines) : replayOutputs ls [] = ls := rfl
@[simp] theorem replayLatch_append (ls : Lines) (e f : List Event) :
    replayLatch ls (e ++ f) = replayLatch (replayLatch ls e) f := List.foldl_append
@[simp] theorem replayOutputs_append (ls : Lines) (e f : List Event) :
    replayOutputs ls (e ++ f) = replayOutputs (replayOutputs ls e) f := List.foldl_append
@[simp] theorem replayLatch_cons (ls : Lines) (e : Event) (f : List Event) :
    replayLatch ls (e :: f) = replayLatch (latchAfter ls e) f := rfl
@[simp] theorem replayOutputs_cons (ls : Lines) (e : Event) (f : List Event) :
    replayOutputs ls (e :: f) = replayOutputs (outputsAfter ls e) f := rfl

theorem replayOutputs_of_no_oe {evs : List Event} (h : ∀ l, Event.oe l ∉ evs) (ls : Lines) :
    replayOutputs ls evs = ls := by
  induction evs generalizing ls with
  | nil => rfl
  | cons e evs ih =>
    have hrest : ∀ l, Event.oe l ∉ evs := fun l hl => h l (by simp [hl])
    cases e with
    | w l v => exact ih hrest ls
    | oe l => exact absurd (List.mem_cons_self) (h l)
    | h ms => exact ih hrest ls

theorem emits_refl (s : State) : Emits s s [] := ⟨by simp, rfl, rfl⟩

/-- Events follow one another. -/
theorem Emits.trans {s t u : State} {e f : List Event} (h : Emits s t e) (k : Emits t u f) :
    Emits s u (e ++ f) := by
  obtain ⟨h1, h2, h3⟩ := h
  obtain ⟨k1, k2, k3⟩ := k
  exact ⟨by rw [k1, h1, List.append_assoc], by rw [k2, h2, replayLatch_append], by rw [k3, h3, replayOutputs_append]⟩

theorem emits_lineWrite (l : Line) (v : Bool) (s : State) :
    Emits s (lineWrite l v s) [.w (physicalLine s.params l) v] := ⟨rfl, rfl, rfl⟩

theorem emits_lineOutput (l : Line) (s : State) : Emits s (lineOutput l s) [.oe l] := ⟨rfl, rfl, rfl⟩

theorem emits_hold (ms : Nat) (s : State) : Emits s (hold ms s) [.h ms] := ⟨rfl, rfl, rfl⟩

/-! ### One pulse, one bit, one frame -/

@[simp] theorem physicalLine_cs (p : Params) : physicalLine p .cs = .cs := by
  unfold physicalLine; cases p.dcBinding <;> rfl
@[simp] theorem physicalLine_clk (p : Params) : physicalLine p .clk = .clk := by
  unfold physicalLine; cases p.dcBinding <;> rfl
@[simp] theorem physicalLine_data (p : Params) : physicalLine p .data = .data := by
  unfold physicalLine; cases p.dcBinding <;> rfl
@[simp] theorem physicalLine_rst (p : Params) : physicalLine p .rst = .rst := by
  unfold physicalLine; cases p.dcBinding <;> rfl
theorem physicalLine_dc (p : Params) : physicalLine p .dc = selectLine p := by
  unfold physicalLine selectLine; cases p.dcBinding <;> rfl

theorem dcLevel_eq (p : Params) (k : Kind) :
    dcLevel p k = if k = .command then p.dcCmdLevel else !p.dcCmdLevel := by
  cases k <;> rfl

/-- A state after the events `evs` that touch no output enable: nothing but the latches and the trace moved. -/
def afterEvents (evs : List Event) (s : State) : State :=
  { s with latch := replayLatch s.latch evs, trace := s.trace ++ evs }

theorem afterEvents_append (e f : List Event) (s : State) :
    afterEvents (e ++ f) s = afterEvents f (afterEvents e s) := by
  simp [afterEvents]

theorem lineWrite_eq (l : Line) (v : Bool) (s : State) :
    lineWrite l v s = afterEvents [.w (physicalLine s.params l) v] s := rfl

theorem clockPulse_eq (s : State) : clockPulse s = afterEvents (pulseEvents s.params) s := by
  simp only [clockPulse, lineWrite_eq, physicalLine_clk, pulseEvents]
  rw [← afterEvents_append]
  rfl

/-- One round of the shift loop puts out bit `n` when `n + 1` bits are to go. -/
theorem shiftBit_eq (s : State) {n : Nat} (hn : n < 8) (h : s.seq.bitcnt = BitVec.ofNat 4 (n + 1)) :
    shiftBit s = { afterEvents (bitEvents s.params (s.seq.shreg.getLsbD n)) s with
      seq := { s.seq with bitcnt := BitVec.ofNat 4 n } } := by
  have hb : s.seq.bitcnt - 1 = BitVec.ofNat 4 n := by
    rw [h]
    apply BitVec.eq_of_toNat_eq
    simp
    omega
  have hn' : (BitVec.ofNat 4 n).toNat = n := by simp; omega
  simp only [shiftBit, hb, hn']
  rw [clockPulse_eq, lineWrite_eq]
  simp [afterEvents, bitEvents]

/-- The events of the low `n` bits of a byte, highest first. -/
def bitsEvents (p : Params) (b : Byte) : Nat → List Event
  | 0 => []
  | n + 1 => bitEvents p (b.getLsbD n) ++ bitsEvents p b n

/-- The shift loop with `n` bits to go puts out those bits and leaves none. -/
theorem times_shiftBit_eq : ∀ (n : Nat) (s : State), n ≤ 8 → s.seq.bitcnt = BitVec.ofNat 4 n →
    times n shiftBit s = { afterEvents (bitsEvents s.params s.seq.shreg n) s with
      seq := { s.seq with bitcnt := 0 } }
  | 0, s, _, h => by
    have h0 : { s.seq with bitcnt := 0#4 } = s.seq := by
      have : s.seq.bitcnt = 0#4 := h
      rw [← this]
    simp [afterEvents, bitsEvents, h0]
  | n + 1, s, hn, h => by
    rw [times_succ, shiftBit_eq s (by omega) h, times_shiftBit_eq n _ (by omega) rfl]
    simp [afterEvents, bitsEvents]

/-- `Transmit` appends the events of one frame, moves the latches as they say, and changes nothing else but the working
registers it loads (R104, R105). -/
theorem transmit_eq (k : Kind) (b : Byte) (s : State) :
    transmit k b s = { afterEvents (frameEvents s.params k b) s with
      seq := { s.seq with shreg := b, kind := k, bitcnt := 0 } } := by
  simp only [transmit]
  rw [times_shiftBit_eq 8 _ (by omega) (by simp [clockPulse])]
  simp [lineWrite_eq, clockPulse_eq, afterEvents, frameEvents, physicalLine_dc, dcLevel_eq, bitsEvents]

@[simp] theorem transmit_params (k : Kind) (b : Byte) (s : State) : (transmit k b s).params = s.params := by
  rw [transmit_eq]; rfl

@[simp] theorem transmit_binding (k : Kind) (b : Byte) (s : State) : (transmit k b s).binding = s.binding := by
  rw [transmit_eq]; rfl

@[simp] theorem transmit_fb (k : Kind) (b : Byte) (s : State) : (transmit k b s).fb = s.fb := by
  rw [transmit_eq]; rfl

@[simp] theorem transmit_oe (k : Kind) (b : Byte) (s : State) : (transmit k b s).oe = s.oe := by
  rw [transmit_eq]; rfl

@[simp] theorem transmit_busy (k : Kind) (b : Byte) (s : State) : (transmit k b s).busy = s.busy := by
  rw [transmit_eq]; rfl

@[simp] theorem transmit_rsp (k : Kind) (b : Byte) (s : State) : (transmit k b s).rsp = s.rsp := by
  rw [transmit_eq]; rfl

@[simp] theorem transmit_shadow (k : Kind) (b : Byte) (s : State) : (transmit k b s).shadow = s.shadow := by
  rw [transmit_eq]; rfl

@[simp] theorem transmit_program (k : Kind) (b : Byte) (s : State) : (transmit k b s).program = s.program := by
  rw [transmit_eq]; rfl

@[simp] theorem transmit_responses (k : Kind) (b : Byte) (s : State) : (transmit k b s).responses = s.responses := by
  rw [transmit_eq]; rfl

@[simp] theorem transmit_draws (k : Kind) (b : Byte) (s : State) : (transmit k b s).draws = s.draws := by
  rw [transmit_eq]; rfl

@[simp] theorem transmit_latch (k : Kind) (b : Byte) (s : State) :
    (transmit k b s).latch = replayLatch s.latch (frameEvents s.params k b) := by
  rw [transmit_eq]; rfl

@[simp] theorem transmit_trace (k : Kind) (b : Byte) (s : State) :
    (transmit k b s).trace = s.trace ++ frameEvents s.params k b := by
  rw [transmit_eq]; rfl

@[simp] theorem transmit_seq (k : Kind) (b : Byte) (s : State) :
    (transmit k b s).seq = { s.seq with shreg := b, kind := k, bitcnt := 0 } := by
  rw [transmit_eq]

/-! ### The events of a frame -/

/-- Every event of a frame is a line write. -/
theorem all_isWrite_frameEvents (p : Params) (k : Kind) (b : Byte) : (frameEvents p k b).all isWrite = true := rfl

/-- A frame makes no line an output. -/
@[simp] theorem replayOutputs_frameEvents (p : Params) (k : Kind) (b : Byte) (ls : Lines) :
    replayOutputs ls (frameEvents p k b) = ls := rfl

theorem length_frameEvents (p : Params) (k : Kind) (b : Byte) : (frameEvents p k b).length = 29 := rfl

theorem emits_transmit (k : Kind) (b : Byte) (s : State) :
    Emits s (transmit k b s) (frameEvents s.params k b) := by
  simp [Emits]

/-- The latches a frame leaves: chip-select unasserted, the clock at rest, the data line at bit 0, the select line at the
kind, the reset line as it was (R105). -/
theorem replayLatch_frameEvents (p : Params) (k : Kind) (b : Byte) (ls : Lines) :
    replayLatch ls (frameEvents p k b) =
      { cs := true, clk := p.clkIdle, data := b.getLsbD 0,
        dc := match p.dcBinding with
          | .dedicated => if k = .command then p.dcCmdLevel else !p.dcCmdLevel
          | .sharedWithData => ls.dc
        rst := ls.rst } := by
  cases h : p.dcBinding <;>
    simp [frameEvents, bitEvents, pulseEvents, selectLine, h, latchAfter, Lines.set]

theorem dataEvents_cons (p : Params) (b : Byte) (bs : List Byte) :
    dataEvents p (b :: bs) = frameEvents p .data b ++ dataEvents p bs := rfl

theorem dataEvents_append (p : Params) (bs cs : List Byte) :
    dataEvents p (bs ++ cs) = dataEvents p bs ++ dataEvents p cs := by
  simp [dataEvents]

theorem commandEvents_append (p : Params) (bs cs : List Byte) :
    commandEvents p (bs ++ cs) = commandEvents p bs ++ commandEvents p cs := by
  simp [commandEvents]

theorem commandEvents_cons (p : Params) (b : Byte) (bs : List Byte) :
    commandEvents p (b :: bs) = frameEvents p .command b ++ commandEvents p bs := rfl

@[simp] theorem commandEvents_nil (p : Params) : commandEvents p [] = [] := rfl
@[simp] theorem dataEvents_nil (p : Params) : dataEvents p [] = [] := rfl

theorem replayOutputs_flatMap_frames (p : Params) (k : Kind) (bs : List Byte) (ls : Lines) :
    replayOutputs ls (bs.flatMap (frameEvents p k)) = ls := by
  induction bs with
  | nil => rfl
  | cons b bs ih => simpa using ih

@[simp] theorem replayOutputs_commandEvents (p : Params) (bs : List Byte) (ls : Lines) :
    replayOutputs ls (commandEvents p bs) = ls := replayOutputs_flatMap_frames p .command bs ls

@[simp] theorem replayOutputs_dataEvents (p : Params) (bs : List Byte) (ls : Lines) :
    replayOutputs ls (dataEvents p bs) = ls := replayOutputs_flatMap_frames p .data bs ls

end Sys2Proof.Machine
end

