-- ==== Sys2Proof/Laws/Flush.lean ====
section
/-!
SUPPORT. The address generator and the stream engine: the flush sends the framebuffer in index order (R190, R191).
-/
namespace Sys2Proof.Machine

/-- The address generator stands at index `n`: page `n / 96`, column `n % 96` (R191, R42). -/
def AtIndex (s : State) (n : Nat) : Prop :=
  s.seq.page = BitVec.ofNat 4 (n / 96) ∧ s.seq.col = BitVec.ofNat 7 (n % 96)

theorem atIndex_startAddress (s : State) : AtIndex (startAddress s) 0 := ⟨rfl, rfl⟩

/-- The read address of the generator at index `n` is `n`. -/
theorem flushAddress_of_atIndex {s : State} {n : Nat} (h : AtIndex s n) (hn : n < 864) : flushAddress s = n := by
  obtain ⟨hp, hc⟩ := h
  have hpage : (BitVec.ofNat 4 (n / 96)).toNat = n / 96 := by simp; omega
  have hcol : (BitVec.ofNat 7 (n % 96)).toNat = n % 96 := by simp; omega
  simp only [flushAddress, byteIndex, hp, hc, hpage, hcol]
  omega

/-- The generator moves only its own two registers, and to the next index. -/
theorem nextAddress_eq (s : State) : ∃ q, nextAddress s = { s with seq := q } ∧ q.step = s.seq.step := by
  unfold nextAddress
  split <;> exact ⟨_, rfl, rfl⟩

theorem atIndex_nextAddress {s : State} {n : Nat} (h : AtIndex s n) (hn : n < 863) :
    AtIndex (nextAddress s) (n + 1) := by
  obtain ⟨hp, hc⟩ := h
  unfold nextAddress
  by_cases h95 : n % 96 = 95
  · have : s.seq.col = 95 := by rw [hc, h95]; rfl
    rw [if_pos this]
    refine ⟨?_, ?_⟩
    · apply BitVec.eq_of_toNat_eq
      simp [hp]
      omega
    · apply BitVec.eq_of_toNat_eq
      simp
      omega
  · have : ¬ s.seq.col = 95 := by
      rw [hc]
      intro e
      have := congrArg BitVec.toNat e
      simp at this
      omega
    rw [if_neg this]
    refine ⟨?_, ?_⟩
    · apply BitVec.eq_of_toNat_eq
      simp [hp]
      omega
    · apply BitVec.eq_of_toNat_eq
      simp [hc]
      omega

/-- One byte of the flush at index `n` sends `FB[n]` and keeps the generator where it is. -/
theorem streamByte_eq {s : State} {n : Nat} (h : AtIndex s n) (hn : n < 864) :
    ∃ q, streamByte s = { afterEvents (frameEvents s.params .data (Memory.read s.fb n)) s with seq := q }
      ∧ q.step = s.seq.step ∧ AtIndex (streamByte s) n := by
  refine ⟨{ s.seq with shreg := Memory.read s.fb n, kind := .data, bitcnt := 0 }, ?_, rfl, ?_⟩
  · unfold streamByte
    rw [flushAddress_of_atIndex h hn, transmit_eq]
    rfl
  · exact ⟨by simpa [streamByte] using h.1, by simpa [streamByte] using h.2⟩

/-- `n` more bytes after index `k` send the next `n` bytes. -/
theorem times_stream_eq : ∀ (n k : Nat) (s : State), AtIndex s k → k + n < 864 →
    ∃ q, times n (fun s => streamByte (nextAddress s)) s =
      { afterEvents (dataEvents s.params ((List.range' (k + 1) n).map (Memory.read s.fb))) s with seq := q }
        ∧ q.step = s.seq.step
  | 0, k, s, _, _ => ⟨s.seq, by simp [afterEvents], rfl⟩
  | n + 1, k, s, h, hk => by
    obtain ⟨q1, h1, e1⟩ := nextAddress_eq s
    have hnext := atIndex_nextAddress h (by omega)
    obtain ⟨q2, h2, e2, hat⟩ := streamByte_eq hnext (by omega)
    obtain ⟨q3, h3, e3⟩ := times_stream_eq n (k + 1) (streamByte (nextAddress s)) hat (by omega)
    refine ⟨q3, ?_, ?_⟩
    · rw [times_succ, h3, h2, h1]
      simp [afterEvents, List.range'_succ, dataEvents_cons]
    · rw [e3, h2]
      simp only
      rw [e2, h1]
      exact e1

/-- The flush appends one Data frame for each byte of the framebuffer, in index order, moves the latches as those events
say, and changes nothing else but working registers, the `step` of INIT not among them (R190, R191). -/
theorem flush_eq (s : State) :
    ∃ q, flush s = { afterEvents (dataEvents s.params (fbBytes s)) s with seq := q } ∧ q.step = s.seq.step := by
  obtain ⟨q1, h1, e1, hat⟩ := streamByte_eq (atIndex_startAddress s) (by omega)
  obtain ⟨q2, h2, e2⟩ := times_stream_eq 863 0 (streamByte (startAddress s)) hat (by omega)
  refine ⟨q2, ?_, by rw [e2, h1]; exact e1⟩
  have hbytes : fbBytes s = Memory.read s.fb 0 :: (List.range' 1 863).map (Memory.read s.fb) := by
    rw [fbBytes, List.range_eq_range', List.range'_succ, List.map_cons]
  unfold flush
  rw [h2, h1, hbytes]
  simp [afterEvents, dataEvents_cons]

end Sys2Proof.Machine
end

