-- ==== Sys2Proof/Laws/Protocol.lean ====
section
/-!
SUPPORT. What the controller protocol's sequences do (R108, R120, R123, R126).
-/
namespace Sys2Proof.Machine

/-- Whether the lines are outputs depends on the output enables and the parameters alone (R128). -/
theorem linesAreOutputs_congr {s t : State} (ho : t.oe = s.oe) (hp : t.params = s.params) :
    linesAreOutputs t = linesAreOutputs s := by
  simp only [linesAreOutputs, ho, hp]

theorem hardResetSequence_eq (s : State) :
    hardResetSequence s = { afterEvents hardResetEvents s with
      shadow := if linesAreOutputs s then shadowAfterHardReset s.shadow else s.shadow } := by
  simp [hardResetSequence, updateShadow, lineWrite_eq, hold, afterEvents, hardResetEvents, linesAreOutputs,
    Config.resetHoldMs, latchAfter]

theorem sendCommand_eq (b : Byte) (s : State) :
    sendCommand b s = { afterEvents (frameEvents s.params .command b) s with
      seq := { s.seq with shreg := b, kind := .command, bitcnt := 0 } } := transmit_eq _ _ _

theorem sendContrast_eq (value : Byte) (s : State) :
    ∃ q, sendContrast value s = { afterEvents (commandEvents s.params [s.params.cmd.vopHi, vopLowByte s.params value]) s with
      shadow := if linesAreOutputs s then setContrastShadow ((lowNibble value).truncate 4) s.shadow else s.shadow
      seq := q } ∧ q.step = s.seq.step := by
  refine ⟨{ s.seq with shreg := vopLowByte s.params value, kind := .command, bitcnt := 0 }, ?_, rfl⟩
  simp only [sendContrast, sendCommand_eq, updateShadow]
  simp [afterEvents, linesAreOutputs, commandEvents]

theorem sendCursor_eq (x page : Int) (s : State) :
    ∃ q, sendCursor x page s = { afterEvents (commandEvents s.params
        [xAddrLowByte s.params x, xAddrHighByte s.params x, yAddrByte s.params page]) s with
      shadow := if linesAreOutputs s then setHomeShadow false s.shadow else s.shadow
      seq := q } := by
  refine ⟨{ s.seq with shreg := yAddrByte s.params page, kind := .command, bitcnt := 0 }, ?_⟩
  simp only [sendCursor, sendCommand_eq, updateShadow]
  simp [afterEvents, linesAreOutputs, commandEvents]

theorem makeLinesOutputs_eq (s : State) :
    makeLinesOutputs s = { s with
      oe := replayOutputs s.oe (outputEvents s.params), trace := s.trace ++ outputEvents s.params } := by
  cases h : s.params.dcBinding <;> simp [makeLinesOutputs, outputEvents, h, lineOutput, outputsAfter]

theorem linesAreOutputs_makeLinesOutputs (s : State) : linesAreOutputs (makeLinesOutputs s) = true := by
  rw [makeLinesOutputs_eq]
  cases h : s.params.dcBinding <;> simp [linesAreOutputs, outputEvents, h, outputsAfter, Lines.set]

/-! ### INIT, step by step -/

/-- `u` is `s` after steps 0 to `n` of INIT, with these events, this framebuffer and this shadow. -/
def InitReached (s u : State) (n : Nat) (evs : List Event) (m : Memory) (sh : Shadow) : Prop :=
  u = { s with
    fb := m
    latch := replayLatch s.latch evs
    oe := replayOutputs s.oe (outputEvents s.params)
    trace := s.trace ++ evs
    shadow := sh
    seq := u.seq } ∧ u.seq.step = BitVec.ofNat 4 n

/-- The state in which the next step of INIT runs. -/
def stepUp (u : State) : State := { u with seq := { u.seq with step := u.seq.step + 1 } }

theorem InitReached.stepUp {s u : State} {n : Nat} {evs : List Event} {m : Memory} {sh : Shadow}
    (h : InitReached s u n evs m sh) : InitReached s (stepUp u) (n + 1) evs m sh := by
  obtain ⟨h1, h2⟩ := h
  refine ⟨?_, ?_⟩
  · conv_lhs => rw [Machine.stepUp, h1]
    rfl
  · simp only [Machine.stepUp, h2]
    apply BitVec.eq_of_toNat_eq
    simp

theorem InitReached.current {s u : State} {n : Nat} {evs : List Event} {m : Memory} {sh : Shadow}
    (h : InitReached s u n evs m sh) (hn : n < 16) : currentInitStep u = initStep n u := by
  have : u.seq.step.toNat = n := by
    rw [h.2]
    simp
    omega
  simp only [currentInitStep, this]

theorem InitReached.params {s u : State} {n : Nat} {evs : List Event} {m : Memory} {sh : Shadow}
    (h : InitReached s u n evs m sh) : u.params = s.params := by
  rw [h.1]

theorem InitReached.outputs {s u : State} {n : Nat} {evs : List Event} {m : Memory} {sh : Shadow}
    (h : InitReached s u n evs m sh) : linesAreOutputs u = true := by
  rw [← linesAreOutputs_makeLinesOutputs s]
  refine linesAreOutputs_congr ?_ ?_ <;> rw [h.1, makeLinesOutputs_eq]

/-- A state that differs from `u` by more events, a framebuffer, a shadow and working registers. -/
theorem InitReached.extend {s u t : State} {n : Nat} {evs more : List Event} {m m' : Memory} {sh sh' : Shadow}
    (h : InitReached s u n evs m sh)
    (ht : t = { afterEvents more u with fb := m', shadow := sh', seq := t.seq }) (hs : t.seq.step = u.seq.step) :
    InitReached s t n (evs ++ more) m' sh' := by
  obtain ⟨h1, h2⟩ := h
  refine ⟨?_, hs.trans h2⟩
  rw [ht, h1]
  simp [afterEvents]

theorem InitReached.fb {s u : State} {n : Nat} {evs : List Event} {m : Memory} {sh : Shadow}
    (h : InitReached s u n evs m sh) : u.fb = m := by rw [h.1]

theorem InitReached.shadow {s u : State} {n : Nat} {evs : List Event} {m : Memory} {sh : Shadow}
    (h : InitReached s u n evs m sh) : u.shadow = sh := by rw [h.1]

/-- A step that appends events and otherwise moves only working registers. -/
theorem InitReached.appended {s u t : State} {n : Nat} {evs more : List Event} {m : Memory} {sh : Shadow}
    (h : InitReached s u n evs m sh)
    (ht : ∃ q, t = { afterEvents more u with seq := q } ∧ q.step = u.seq.step) :
    InitReached s t n (evs ++ more) m sh := by
  obtain ⟨q, rfl, hq⟩ := ht
  have hm := h.fb
  have hsh := h.shadow
  subst hm hsh
  exact h.extend rfl hq

/-- A step that sends one Command. -/
theorem InitReached.command {s u : State} {n : Nat} {evs : List Event} {m : Memory} {sh : Shadow}
    (h : InitReached s u n evs m sh) (b : Byte) :
    InitReached s (sendCommand b u) n (evs ++ commandEvents s.params [b]) m sh := by
  refine h.extend (more := commandEvents s.params [b]) ?_ ?_
  · rw [sendCommand_eq, h.params]
    simp [afterEvents, commandEvents, h.fb, h.shadow]
  · rw [sendCommand_eq]

/-- A shadow update, made because the lines are outputs. -/
theorem InitReached.update {s u : State} {n : Nat} {evs : List Event} {m : Memory} {sh : Shadow}
    (h : InitReached s u n evs m sh) (f : Shadow → Shadow) :
    InitReached s (updateShadow f u) n evs m (f sh) := by
  have := h.extend (t := updateShadow f u) (more := []) (m' := m) (sh' := f sh) (by
    simp [updateShadow, h.outputs, afterEvents, ← h.fb, ← h.shadow]) rfl
  simpa using this

theorem initReached_zero (s : State) :
    InitReached s (currentInitStep { s with seq := { s.seq with step := 0 } }) 0 (outputEvents s.params) s.fb
      s.shadow := by
  have hlatch : ∀ ls, replayLatch ls (outputEvents s.params) = ls := by
    intro ls
    cases h : s.params.dcBinding <;> simp [outputEvents, h, latchAfter]
  have h : currentInitStep { s with seq := { s.seq with step := 0 } } =
      makeLinesOutputs { s with seq := { s.seq with step := 0 } } := rfl
  rw [h, makeLinesOutputs_eq]
  exact ⟨by simp [hlatch], rfl⟩

/-- INIT appends its events, clears the framebuffer, makes the lines outputs and leaves the shadow of a configured
controller with all pixels on; nothing else but working registers changes (R120). -/
theorem initSequence_eq (s : State) :
    ∃ q, initSequence s = { s with
      fb := Memory.fill s.fb 0
      latch := replayLatch s.latch (initEvents s.params)
      oe := replayOutputs s.oe (outputEvents s.params)
      trace := s.trace ++ initEvents s.params
      shadow := { phase := .allPixelsOn, contrast := some s.params.defaultContrast, addr := some .horizontal,
                  home := true }
      seq := q } := by
  have next : ∀ u, (fun s => currentInitStep { s with seq := { s.seq with step := s.seq.step + 1 } }) u =
    currentInitStep (stepUp u) := fun _ => rfl
  have r0 := initReached_zero s
  unfold initSequence
  generalize currentInitStep { s with seq := { s.seq with step := 0 } } = u0 at r0 ⊢
  simp only [times_succ, times_zero, next]
  -- step 1
  have r1 : InitReached s (currentInitStep (stepUp u0)) 1 (outputEvents s.params ++ []) (Memory.fill s.fb 0) s.shadow := by
    rw [r0.stepUp.current (by omega)]
    refine r0.stepUp.extend (more := []) ?_ rfl
    simp [initStep, fbFill, afterEvents, r0.stepUp.fb, r0.stepUp.shadow]
  generalize currentInitStep (stepUp u0) = u1 at r1 ⊢
  -- step 2
  have r2 : InitReached s (currentInitStep (stepUp u1)) 2
      (outputEvents s.params ++ [] ++ hardResetEvents) (Memory.fill s.fb 0)
      (shadowAfterHardReset s.shadow) := by
    rw [r1.stepUp.current (by omega)]
    refine r1.stepUp.extend (more := hardResetEvents) ?_ ?_
    · simp only [initStep]
      rw [hardResetSequence_eq, r1.stepUp.outputs, if_pos rfl, r1.stepUp.shadow]
      simp [afterEvents, r1.stepUp.fb]
    · simp only [initStep]
      rw [hardResetSequence_eq]
      rfl
  generalize currentInitStep (stepUp u1) = u2 at r2 ⊢
  -- steps 3 to 9
  have r3 := (r2.stepUp).command s.params.cmd.powerPumpOn
  rw [show sendCommand s.params.cmd.powerPumpOn (stepUp u2) = currentInitStep (stepUp u2) by
    rw [r2.stepUp.current (by omega)]; simp only [initStep, r2.stepUp.params]] at r3
  generalize currentInitStep (stepUp u2) = u3 at r3 ⊢
  have r4 := ((r3.stepUp).command s.params.cmd.addrHorizontal).update (setAddrShadow .horizontal)
  rw [show updateShadow (setAddrShadow .horizontal) (sendCommand s.params.cmd.addrHorizontal (stepUp u3))
      = currentInitStep (stepUp u3) by
    rw [r3.stepUp.current (by omega)]; simp only [initStep, r3.stepUp.params]] at r4
  generalize currentInitStep (stepUp u3) = u4 at r4 ⊢
  have r5 := (r4.stepUp).command s.params.cmd.tempcompOn
  rw [show sendCommand s.params.cmd.tempcompOn (stepUp u4) = currentInitStep (stepUp u4) by
    rw [r4.stepUp.current (by omega)]; simp only [initStep, r4.stepUp.params]] at r5
  generalize currentInitStep (stepUp u4) = u5 at r5 ⊢
  have r6 := (r5.stepUp).command s.params.cmd.frameFreq80
  rw [show sendCommand s.params.cmd.frameFreq80 (stepUp u5) = currentInitStep (stepUp u5) by
    rw [r5.stepUp.current (by omega)]; simp only [initStep, r5.stepUp.params]] at r6
  generalize currentInitStep (stepUp u5) = u6 at r6 ⊢
  have r7 := (r6.stepUp).command s.params.cmd.oscInternal
  rw [show sendCommand s.params.cmd.oscInternal (stepUp u6) = currentInitStep (stepUp u6) by
    rw [r6.stepUp.current (by omega)]; simp only [initStep, r6.stepUp.params]] at r7
  generalize currentInitStep (stepUp u6) = u7 at r7 ⊢
  have r8 := (r7.stepUp).command s.params.cmd.pumpMultX2
  rw [show sendCommand s.params.cmd.pumpMultX2 (stepUp u7) = currentInitStep (stepUp u7) by
    rw [r7.stepUp.current (by omega)]; simp only [initStep, r7.stepUp.params]] at r8
  generalize currentInitStep (stepUp u7) = u8 at r8 ⊢
  have r9 := (r8.stepUp).command s.params.cmd.bias
  rw [show sendCommand s.params.cmd.bias (stepUp u8) = currentInitStep (stepUp u8) by
    rw [r8.stepUp.current (by omega)]; simp only [initStep, r8.stepUp.params]] at r9
  generalize currentInitStep (stepUp u8) = u9 at r9 ⊢
  -- step 10
  have r10 := ((((r9.stepUp).command s.params.cmd.vopHi).command
    (vopLowByte s.params (defaultContrastByte s.params))).update
      (setContrastShadow ((lowNibble (defaultContrastByte s.params)).truncate 4))).update (setPhase .configured)
  rw [show updateShadow (setPhase .configured) (updateShadow
        (setContrastShadow ((lowNibble (defaultContrastByte s.params)).truncate 4))
        (sendCommand (vopLowByte s.params (defaultContrastByte s.params)) (sendCommand s.params.cmd.vopHi (stepUp u9))))
      = currentInitStep (stepUp u9) by
    rw [r9.stepUp.current (by omega)]
    simp only [initStep, sendContrast, r9.stepUp.params, ((r9.stepUp).command s.params.cmd.vopHi).params]] at r10
  generalize currentInitStep (stepUp u9) = u10 at r10 ⊢
  -- step 11
  have hz : fbBytes (stepUp u10) = List.replicate 864 0 := by
    simp only [fbBytes, r10.stepUp.fb]
    rw [List.eq_replicate_iff]
    refine ⟨by rw [List.length_map, List.length_range], ?_⟩
    intro b hb
    obtain ⟨a, ha, rfl⟩ := List.mem_map.mp hb
    rw [Memory.read_fill, if_pos (List.mem_range.mp ha)]
  have hflush := flush_eq (stepUp u10)
  rw [hz, r10.stepUp.params] at hflush
  have r11 := r10.stepUp.appended hflush
  rw [show flush (stepUp u10) = currentInitStep (stepUp u10) by rw [r10.stepUp.current (by omega)]; rfl] at r11
  generalize currentInitStep (stepUp u10) = u11 at r11 ⊢
  -- steps 12 and 13
  have r12 := ((r11.stepUp).command s.params.cmd.displayOn).update (setPhase .normal)
  rw [show updateShadow (setPhase .normal) (sendCommand s.params.cmd.displayOn (stepUp u11))
      = currentInitStep (stepUp u11) by
    rw [r11.stepUp.current (by omega)]; simp only [initStep, r11.stepUp.params]] at r12
  generalize currentInitStep (stepUp u11) = u12 at r12 ⊢
  have r13 := ((r12.stepUp).command s.params.cmd.displayAllOn).update (setPhase .allPixelsOn)
  rw [show updateShadow (setPhase .allPixelsOn) (sendCommand s.params.cmd.displayAllOn (stepUp u12))
      = currentInitStep (stepUp u12) by
    rw [r12.stepUp.current (by omega)]; simp only [initStep, r12.stepUp.params]] at r13
  generalize currentInitStep (stepUp u12) = u13 at r13 ⊢
  refine ⟨u13.seq, r13.1.trans ?_⟩
  have hlow : ∀ v : BitVec 4, lowNibble (v.zeroExtend 8) = v.zeroExtend 8 := by decide
  have hc : (lowNibble (defaultContrastByte s.params)).truncate 4 = s.params.defaultContrast := by
    have : ∀ v : BitVec 4, (v.zeroExtend 8 : Byte).truncate 4 = v := by decide
    rw [defaultContrastByte, hlow, this]
  have hv : vopLowByte s.params (defaultContrastByte s.params)
      = s.params.cmd.vopLoBase ||| s.params.defaultContrast.zeroExtend 8 := by
    rw [vopLowByte, defaultContrastByte, hlow]
  simp [-List.reduceReplicate, hc, hv, initEvents, configurationBytes, commandEvents, setPhase, setContrastShadow, setAddrShadow,
    shadowAfterHardReset]

end Sys2Proof.Machine
end

