-- ==== Sys2Proof/Laws/Shapes.lean ====
section
/-!
SUPPORT. What the shapes keep on any operands, and that the framebuffer they leave depends on the framebuffer they find
alone (R184).
-/
namespace Sys2Proof.Machine

/-- From `s` to `t` nothing but framebuffer bytes and working registers changed. -/
def TouchesFb (s t : State) : Prop :=
  (∃ m q, t = { s with fb := m, seq := q }) ∧ (Memory.wf s.fb → Memory.wf t.fb) ∧
    ∀ a, 864 ≤ a → Memory.read t.fb a = Memory.read s.fb a

theorem touchesFb_setSeq (s : State) (q : Sequencer) : TouchesFb s { s with seq := q } :=
  ⟨⟨s.fb, q, rfl⟩, id, fun _ _ => rfl⟩

theorem TouchesFb.trans {s t u : State} (h : TouchesFb s t) (k : TouchesFb t u) : TouchesFb s u := by
  obtain ⟨⟨m, q, hm⟩, hw, hr⟩ := h
  obtain ⟨⟨n, r, kn⟩, kw, kr⟩ := k
  exact ⟨⟨n, r, by rw [kn, hm]⟩, fun w => kw (hw w), fun a ha => (kr a ha).trans (hr a ha)⟩

theorem touchesFb_plotPixel (x y : Int) (color : Byte) (s : State) : TouchesFb s (plotPixel x y color s) := by
  obtain ⟨m, h, hw⟩ := plotPixel_eq x y color s
  exact ⟨⟨m, s.seq, by rw [h]⟩, by rw [h]; exact hw, (painted_plotPixel x y color s).2.2.2⟩

theorem touchesFb_times {f : State → State} (h : ∀ s, TouchesFb s (f s)) :
    ∀ (n : Nat) (s : State), TouchesFb s (times n f s)
  | 0, s => touchesFb_setSeq s s.seq
  | n + 1, s => (h s).trans (touchesFb_times h n (f s))

theorem touchesFb_loopI {body : State → State} (h : ∀ s, TouchesFb s (body s)) (n : Nat) (s : State) :
    TouchesFb s (loopI n body s) :=
  (touchesFb_setSeq s _).trans (touchesFb_times (fun t => (h t).trans (touchesFb_setSeq _ _)) n _)

theorem touchesFb_loopJ {body : State → State} (h : ∀ s, TouchesFb s (body s)) (n : Nat) (s : State) :
    TouchesFb s (loopJ n body s) :=
  (touchesFb_setSeq s _).trans (touchesFb_times (fun t => (h t).trans (touchesFb_setSeq _ _)) n _)

theorem touchesFb_outline (x y w h : Int) (color : Byte) (s : State) : TouchesFb s (outline x y w h color s) := by
  unfold outline
  split
  · exact (touchesFb_loopI (fun t => (touchesFb_plotPixel _ _ _ _).trans (touchesFb_plotPixel _ _ _ _)) _ _).trans
      (touchesFb_loopJ (fun t => (touchesFb_plotPixel _ _ _ _).trans (touchesFb_plotPixel _ _ _ _)) _ _)
  · exact touchesFb_setSeq s s.seq

theorem touchesFb_box (x y w h : Int) (color : Byte) (s : State) : TouchesFb s (box x y w h color s) := by
  unfold box
  split
  · exact touchesFb_loopJ (fun t => touchesFb_loopI (fun u => touchesFb_plotPixel _ _ _ _) _ _) _ _
  · exact touchesFb_setSeq s s.seq

/-! ### Two runs on related framebuffers -/

/-- A relation of framebuffers that byte accesses inside the 864 bytes respect. Equality is one, and agreeing inside the
864 bytes is another. -/
structure FbRelation (R : Memory → Memory → Prop) : Prop where
  read  : ∀ m n a, a < 864 → R m n → Memory.read m a = Memory.read n a
  write : ∀ m n a v, a < 864 → R m n → R (Memory.write m a v) (Memory.write n a v)

theorem fbRelation_eq : FbRelation (· = ·) :=
  ⟨fun _ _ _ _ h => by rw [h], fun _ _ _ _ _ h => by rw [h]⟩

theorem fbRelation_agree : FbRelation fun m n => ∀ a, a < 864 → Memory.read m a = Memory.read n a :=
  ⟨fun _ _ a ha h => h a ha, fun _ _ a v _ h b hb => by rw [Memory.read_write, Memory.read_write, h b hb]⟩

theorem plotPixel_related {R : Memory → Memory → Prop} (hR : FbRelation R) (x y : Int) (color : Byte) {s t : State}
    (h : R s.fb t.fb) : R (plotPixel x y color s).fb (plotPixel x y color t).fb := by
  unfold plotPixel
  by_cases hr : inRange x y = true
  · have hlt : pixelIndex x y < 864 := by
      simp only [inRange, decide_eq_true_eq] at hr
      simp only [pixelIndex, byteIndex]
      omega
    simp only [if_pos hr, fbByte, hR.read _ _ _ hlt h]
    split <;> exact hR.write _ _ _ _ hlt h
  · simpa only [if_neg hr] using h

theorem times_related {Q : State → State → Prop} {f : State → State} (h : ∀ s t, Q s t → Q (f s) (f t)) :
    ∀ (n : Nat) (s t : State), Q s t → Q (times n f s) (times n f t)
  | 0, _, _, hq => hq
  | n + 1, _, _, hq => times_related h n _ _ (h _ _ hq)

/-- `P` is what is known of the two `j` registers, which the loop on `i` leaves alone. -/
theorem loopI_related {R : Memory → Memory → Prop} {P : BitVec 17 → BitVec 17 → Prop} {f : State → State}
    (h : ∀ s t, R s.fb t.fb → s.seq.i = t.seq.i → P s.seq.j t.seq.j → R (f s).fb (f t).fb)
    (hf : ∀ s, (f s).seq = s.seq) (n : Nat) {s t : State} (hfb : R s.fb t.fb) (hj : P s.seq.j t.seq.j) :
    R (loopI n f s).fb (loopI n f t).fb ∧ P (loopI n f s).seq.j (loopI n f t).seq.j := by
  have := times_related (Q := fun s t => R s.fb t.fb ∧ s.seq.i = t.seq.i ∧ P s.seq.j t.seq.j)
    (f := fun s => let s := f s; { s with seq := { s.seq with i := s.seq.i + 1 } }) (fun s t hq => by
      refine ⟨h s t hq.1 hq.2.1 hq.2.2, ?_, ?_⟩
      · simp only [hf, hq.2.1]
      · simpa only [hf] using hq.2.2) n { s with seq := { s.seq with i := 0 } } { t with seq := { t.seq with i := 0 } }
    ⟨hfb, rfl, hj⟩
  exact ⟨this.1, this.2.2⟩

theorem loopI_seq_j {f : State → State} (hf : ∀ s, (f s).seq = s.seq) (n : Nat) (s : State) :
    (loopI n f s).seq.j = s.seq.j := by
  have : ∀ (n : Nat) (s : State),
      (times n (fun s => let s := f s; { s with seq := { s.seq with i := s.seq.i + 1 } }) s).seq.j = s.seq.j := by
    intro n
    induction n with
    | zero => intro s; rfl
    | succ n ih =>
      intro s
      rw [times_succ, ih]
      simp only [hf]
  exact this n _

theorem loopJ_related {R : Memory → Memory → Prop} {f : State → State}
    (h : ∀ s t, R s.fb t.fb → s.seq.j = t.seq.j → R (f s).fb (f t).fb)
    (hf : ∀ s, (f s).seq.j = s.seq.j) (n : Nat) {s t : State} (hfb : R s.fb t.fb) :
    R (loopJ n f s).fb (loopJ n f t).fb :=
  (times_related (Q := fun s t => R s.fb t.fb ∧ s.seq.j = t.seq.j)
    (f := fun s => let s := f s; { s with seq := { s.seq with j := s.seq.j + 1 } }) (fun s t hq => by
      refine ⟨h s t hq.1 hq.2, ?_⟩
      simp only [hf, hq.2]) n { s with seq := { s.seq with j := 0 } } { t with seq := { t.seq with j := 0 } }
    ⟨hfb, rfl⟩).1

theorem outline_related {R : Memory → Memory → Prop} (hR : FbRelation R) (x y w h : Int) (color : Byte) {s t : State}
    (hfb : R s.fb t.fb) : R (outline x y w h color s).fb (outline x y w h color t).fb := by
  unfold outline
  split
  · refine loopJ_related (fun u v hq hj => ?_) (fun u => by simp) _
      (loopI_related (P := fun _ _ => True) (fun u v hq hi _ => ?_) (fun u => by simp) _ hfb trivial).1
    · rw [hj]
      exact plotPixel_related hR _ _ _ (plotPixel_related hR _ _ _ hq)
    · rw [hi]
      exact plotPixel_related hR _ _ _ (plotPixel_related hR _ _ _ hq)
  · exact hfb

theorem box_related {R : Memory → Memory → Prop} (hR : FbRelation R) (x y w h : Int) (color : Byte) {s t : State}
    (hfb : R s.fb t.fb) : R (box x y w h color s).fb (box x y w h color t).fb := by
  unfold box
  split
  · refine loopJ_related (fun u v hq hj => ?_) (fun u => loopI_seq_j (fun v => by simp) _ _) _ hfb
    refine (loopI_related (P := (· = ·)) (fun u v hq hi hj => ?_) (fun u => by simp) _ hq hj).1
    rw [hi, hj]
    exact plotPixel_related hR _ _ _ hq
  · exact hfb

end Sys2Proof.Machine
end

