-- ==== Sys2Proof/Laws/Exec.lean ====
section
/-!
SUPPORT. Everything one request can do, said once: the events it appends, the framebuffer, the shadow and the response it
leaves. A statement over all requests starts from `exec_eq`.
-/
namespace Sys2Proof.Machine

/-- The events of a request, from the parameters and the bytes of the framebuffer it finds. -/
def requestEvents (p : Params) (bytes : List Byte) : Instr → List Event
  | .init => initEvents p
  | .displayOn => frameEvents p .command p.cmd.displayOn
  | .displayOff => frameEvents p .command p.cmd.displayOff
  | .setContrast value => commandEvents p [p.cmd.vopHi, vopLowByte p value]
  | .invertDisplay state => frameEvents p .command (invertByte p state)
  | .display => dataEvents p bytes
  | .xmit kind byte => frameEvents p kind byte
  | .hardReset => hardResetEvents
  | .setXy x page =>
    if cursorInRange x page then commandEvents p [xAddrLowByte p x, xAddrHighByte p x, yAddrByte p page] else []
  | .clearDisplay => []
  | .getBufferSize => []
  | .fbRead _ => []
  | .fbWrite _ _ => []
  | .getPixel _ _ => []
  | .drawPixel _ _ _ => []
  | .drawRect _ _ _ _ _ => []
  | .fillRect _ _ _ _ _ => []
  | .drawSquare _ _ _ _ => []
  | .fillSquare _ _ _ _ => []
  | .fillScreen _ => []

/-- The shadow update of a request other than INIT, as it is made while the lines are outputs. -/
def requestShadow : Instr → Shadow → Shadow
  | .displayOn => fun sh => setPhase (phaseAfterDisplayOn sh.phase) sh
  | .displayOff => fun sh => setPhase (phaseAfterDisplayOff sh.phase) sh
  | .setContrast value => setContrastShadow ((lowNibble value).truncate 4)
  | .invertDisplay state => fun sh => setPhase (phaseAfterInvert (truthy state) sh.phase) sh
  | .xmit kind _ => shadowAfterXmit kind
  | .hardReset => shadowAfterHardReset
  | .setXy x page => if cursorInRange x page then setHomeShadow false else id
  | .init => id
  | .display => id
  | .clearDisplay => id
  | .getBufferSize => id
  | .fbRead _ => id
  | .fbWrite _ _ => id
  | .getPixel _ _ => id
  | .drawPixel _ _ _ => id
  | .drawRect _ _ _ _ _ => id
  | .fillRect _ _ _ _ _ => id
  | .drawSquare _ _ _ _ => id
  | .fillSquare _ _ _ _ => id
  | .fillScreen _ => id

/-- The shadow a request leaves. -/
def shadowAfter (i : Instr) (s : State) : Shadow :=
  if i = .init then
    { phase := .allPixelsOn, contrast := some s.params.defaultContrast, addr := some .horizontal, home := true }
  else if linesAreOutputs s then requestShadow i s.shadow else s.shadow

/-- What a request responds, if it responds. -/
def requestResponse (i : Instr) (s : State) : Option Word16 :=
  match i with
  | .getPixel x y => some (pixelValue x y s)
  | .getBufferSize => some 864
  | .fbRead index => some (if indexInRange index then (fbByte s index).zeroExtend 16 else 0)
  | _ => none

/-- The framebuffer a request leaves. -/
def requestFb (i : Instr) (s : State) : Memory :=
  match i with
  | .init => Memory.fill s.fb 0
  | .clearDisplay => Memory.fill s.fb 0
  | .fillScreen color => Memory.fill s.fb (if truthy color then 0xFF else 0x00)
  | .drawPixel x y color => (plotPixel x y color s).fb
  | .fbWrite index byte => if indexInRange index then Memory.write s.fb index byte else s.fb
  | .drawRect x y w h color => (outline x y w h color s).fb
  | .fillRect x y w h color => (box x y w h color s).fb
  | .drawSquare x y a color => (outline x y a a color s).fb
  | .fillSquare x y a color => (box x y a a color s).fb
  | _ => s.fb

/-- What a request leaves when it is over. -/
def requestDone (i : Instr) (s : State) : State :=
  retire { s with
    fb := requestFb i s
    latch := replayLatch s.latch (requestEvents s.params (fbBytes s) i)
    oe := replayOutputs s.oe (requestEvents s.params (fbBytes s) i)
    trace := s.trace ++ requestEvents s.params (fbBytes s) i
    rsp := (requestResponse i s).getD s.rsp
    shadow := shadowAfter i s
    responses := s.responses ++ (requestResponse i s).toList }

section
variable (i : Instr) (s : State)

@[simp] theorem requestDone_params : (requestDone i s).params = s.params := rfl
@[simp] theorem requestDone_binding : (requestDone i s).binding = s.binding := rfl
@[simp] theorem requestDone_fb : (requestDone i s).fb = requestFb i s := rfl
@[simp] theorem requestDone_latch : (requestDone i s).latch =
    replayLatch s.latch (requestEvents s.params (fbBytes s) i) := rfl
@[simp] theorem requestDone_oe : (requestDone i s).oe =
    replayOutputs s.oe (requestEvents s.params (fbBytes s) i) := rfl
@[simp] theorem requestDone_busy : (requestDone i s).busy = false := rfl
@[simp] theorem requestDone_rsp : (requestDone i s).rsp = (requestResponse i s).getD s.rsp := rfl
@[simp] theorem requestDone_shadow : (requestDone i s).shadow = shadowAfter i s := rfl
@[simp] theorem requestDone_trace : (requestDone i s).trace = s.trace ++ requestEvents s.params (fbBytes s) i := rfl
@[simp] theorem requestDone_program : (requestDone i s).program = s.program := rfl
@[simp] theorem requestDone_responses : (requestDone i s).responses = s.responses ++ (requestResponse i s).toList := rfl

/-- A request appends its events and moves the lines as they say (R14, R15, R25). -/
theorem emits_requestDone : Emits s (requestDone i s) (requestEvents s.params (fbBytes s) i) := ⟨rfl, rfl, rfl⟩

end

theorem TouchesFb.retire_eq {s t : State} (h : TouchesFb s t) : retire t = retire { s with fb := t.fb } := by
  obtain ⟨⟨m, q, rfl⟩, -, -⟩ := h
  rfl

theorem retire_setSeq (s : State) (q : Sequencer) : retire { s with seq := q } = retire s := rfl

theorem replayOutputs_initEvents (p : Params) (ls : Lines) :
    replayOutputs ls (initEvents p) = replayOutputs ls (outputEvents p) := by
  simp only [initEvents, replayOutputs_append, replayOutputs_commandEvents, replayOutputs_dataEvents, hardResetEvents,
    replayOutputs_cons, outputsAfter, replayOutputs_nil]

/-- Everything one request does. -/
theorem exec_eq (i : Instr) (s : State) : exec i s = .next (requestDone i s) := by
  unfold requestDone
  cases i with
  | init =>
    obtain ⟨q, h⟩ := initSequence_eq s
    simp only [exec, execInit, h, ← replayOutputs_initEvents, requestFb, requestEvents, requestResponse, shadowAfter,
      if_true, Option.getD_none, Option.toList_none, List.append_nil, retire]
  | display =>
    obtain ⟨q, h, -⟩ := flush_eq s
    have hd : execDisplay s = .next (retire (flush s)) := rfl
    rw [h, retire_setSeq] at hd
    refine hd.trans ?_
    simp [afterEvents, requestFb, requestEvents, requestResponse, shadowAfter, requestShadow]
  | drawRect x y w h color =>
    simp only [exec, execDrawRect, (touchesFb_outline x y w h color s).retire_eq]
    simp [requestFb, requestEvents, requestResponse, shadowAfter, requestShadow]
  | fillRect x y w h color =>
    simp only [exec, execFillRect, (touchesFb_box x y w h color s).retire_eq]
    simp [requestFb, requestEvents, requestResponse, shadowAfter, requestShadow]
  | drawSquare x y a color =>
    simp only [exec, execDrawSquare, (touchesFb_outline x y a a color s).retire_eq]
    simp [requestFb, requestEvents, requestResponse, shadowAfter, requestShadow]
  | fillSquare x y a color =>
    simp only [exec, execFillSquare, (touchesFb_box x y a a color s).retire_eq]
    simp [requestFb, requestEvents, requestResponse, shadowAfter, requestShadow]
  | drawPixel x y color =>
    simp only [exec, execDrawPixel, (touchesFb_plotPixel x y color s).retire_eq]
    simp [requestFb, requestEvents, requestResponse, shadowAfter, requestShadow]
  | setContrast value =>
    obtain ⟨q, h, -⟩ := sendContrast_eq value s
    simp only [exec, execSetContrast, h]
    simp [afterEvents, requestFb, requestEvents, requestResponse, shadowAfter, requestShadow, retire]
  | setXy x page =>
    obtain ⟨q, h⟩ := sendCursor_eq x page s
    simp only [exec, execSetXy, h]
    by_cases hr : cursorInRange x page = true <;>
      simp [hr, afterEvents, requestFb, requestEvents, requestResponse, shadowAfter, requestShadow, retire]
  | hardReset =>
    simp only [exec, execHardReset, hardResetSequence_eq]
    simp [hardResetEvents, outputsAfter, afterEvents, requestFb, requestEvents, requestResponse, shadowAfter, requestShadow, retire]
  | displayOn | displayOff | invertDisplay | xmit =>
    simp [exec, execDisplayOn, execDisplayOff, execInvertDisplay, execXmit, sendCommand, transmit_eq, updateShadow,
      linesAreOutputs, afterEvents, requestFb, requestEvents, requestResponse, shadowAfter, requestShadow, retire]
  | fbWrite index byte =>
    by_cases hr : indexInRange index = true <;>
      simp [exec, execFbWrite, hr, fbStore, requestFb, requestEvents, requestResponse, shadowAfter, requestShadow,
        retire]
  | clearDisplay | fillScreen | getPixel | getBufferSize | fbRead =>
    simp [exec, execClearDisplay, execFillScreen, execGetPixel, execGetBufferSize, execFbRead, respond, fbFill,
      requestFb, requestEvents, requestResponse, shadowAfter, requestShadow, retire]

/-! ### The framebuffer a request leaves -/

theorem wf_requestFb (i : Instr) {s : State} (h : Memory.wf s.fb) : Memory.wf (requestFb i s) := by
  cases i with
  | init | clearDisplay | fillScreen => exact Memory.wf_fill _ h
  | drawPixel => exact (touchesFb_plotPixel _ _ _ s).2.1 h
  | drawRect | drawSquare => exact (touchesFb_outline _ _ _ _ _ s).2.1 h
  | fillRect | fillSquare => exact (touchesFb_box _ _ _ _ _ s).2.1 h
  | fbWrite index byte =>
    simp only [requestFb]
    split
    · next hr => exact Memory.wf_write _ h (by simpa [indexInRange] using hr)
    · exact h
  | _ => exact h

theorem requestFb_related {R : Memory → Memory → Prop} (hR : FbRelation R) (i : Instr) {s t : State}
    (h : R s.fb t.fb) : R (requestFb i s) (requestFb i t) := by
  have fill : ∀ v, R (Memory.fill s.fb v) (Memory.fill t.fb v) := by
    intro v
    have : ∀ (l : List Nat), (∀ a ∈ l, a < 864) → ∀ m n, R m n →
        R (l.foldl (fun m i => Memory.write m i v) m) (l.foldl (fun m i => Memory.write m i v) n) := by
      intro l
      induction l with
      | nil => exact fun _ _ _ h => h
      | cons a l ih =>
        exact fun hl m n h => ih (fun b hb => hl b (List.mem_cons_of_mem _ hb)) _ _
          (hR.write _ _ _ _ (hl a List.mem_cons_self) h)
    unfold Memory.fill
    exact this _ (fun a ha => List.mem_range.mp ha) _ _ h
  cases i with
  | init | clearDisplay | fillScreen => exact fill _
  | drawPixel => exact plotPixel_related hR _ _ _ h
  | drawRect | drawSquare => exact outline_related hR _ _ _ _ _ h
  | fillRect | fillSquare => exact box_related hR _ _ _ _ _ h
  | fbWrite index byte =>
    simp only [requestFb]
    split
    · next hr => exact hR.write _ _ _ _ (by simpa [indexInRange] using hr) h
    · exact h
  | _ => exact h

/-- Nothing outside the 864 bytes is written (R45). -/
theorem read_requestFb_outside (i : Instr) (s : State) {a : Nat} (ha : 864 ≤ a) :
    Memory.read (requestFb i s) a = Memory.read s.fb a := by
  have fill : ∀ v, Memory.read (Memory.fill s.fb v) a = Memory.read s.fb a := by
    intro v
    rw [Memory.read_fill, if_neg (by omega)]
  cases i with
  | init | clearDisplay | fillScreen => exact fill _
  | drawPixel => exact (touchesFb_plotPixel _ _ _ s).2.2 a ha
  | drawRect | drawSquare => exact (touchesFb_outline _ _ _ _ _ s).2.2 a ha
  | fillRect | fillSquare => exact (touchesFb_box _ _ _ _ _ s).2.2 a ha
  | fbWrite index byte =>
    simp only [requestFb]
    split
    · next hr =>
      have : index < 864 := by simpa [indexInRange] using hr
      exact Memory.read_write_other _ _ (by omega)
    · rfl
  | _ => rfl

/-- The response depends on the 864 bytes alone (R45). -/
theorem requestResponse_congr (i : Instr) {s t : State} (h : ∀ a, a < 864 → Memory.read s.fb a = Memory.read t.fb a) :
    requestResponse i s = requestResponse i t := by
  cases i with
  | getPixel x y =>
    simp only [requestResponse, pixelValue]
    split
    · next hr =>
      have : pixelIndex x y < 864 := by
        simp only [inRange, decide_eq_true_eq] at hr
        simp only [pixelIndex, byteIndex]
        omega
      simp only [fbByte, h _ this]
    · rfl
  | fbRead index =>
    simp only [requestResponse]
    split
    · next hr => simp only [fbByte, h _ (show index < 864 by simpa [indexInRange] using hr)]
    · rfl
  | _ => rfl

theorem fbBytes_congr {s t : State} (h : ∀ a, a < 864 → Memory.read s.fb a = Memory.read t.fb a) :
    fbBytes s = fbBytes t :=
  List.map_congr_left fun a ha => h a (List.mem_range.mp ha)

/-! ### The lines and the shadow a request leaves -/

/-- The lines of the block between frames: chip-select and reset unasserted, the clock idle (R102, R104, R108). -/
def AtRest (p : Params) (ls : Lines) : Prop := ls.cs = true ∧ ls.rst = true ∧ ls.clk = p.clkIdle

theorem atRest_frames {p : Params} {ls : Lines} (k : Kind) (bs : List Byte) (h : AtRest p ls) :
    AtRest p (replayLatch ls (bs.flatMap (frameEvents p k))) := by
  induction bs generalizing ls with
  | nil => exact h
  | cons b bs ih =>
    rw [List.flatMap_cons, replayLatch_append]
    apply ih
    rw [replayLatch_frameEvents]
    exact ⟨rfl, h.2.1, rfl⟩

theorem atRest_frame {p : Params} {ls : Lines} (k : Kind) (b : Byte) (h : AtRest p ls) :
    AtRest p (replayLatch ls (frameEvents p k b)) := by
  simpa using atRest_frames k [b] h

theorem atRest_hardReset {p : Params} {ls : Lines} (h : AtRest p ls) : AtRest p (replayLatch ls hardResetEvents) := by
  simpa [AtRest, hardResetEvents, latchAfter, Lines.set] using ⟨h.1, h.2.2⟩

theorem replayLatch_outputEvents (p : Params) (ls : Lines) : replayLatch ls (outputEvents p) = ls := by
  cases h : p.dcBinding <;> simp [outputEvents, h, latchAfter]

/-- Whatever a request sends, it leaves the lines at rest. -/
theorem atRest_requestEvents {p : Params} {ls : Lines} (bytes : List Byte) (i : Instr) (h : AtRest p ls) :
    AtRest p (replayLatch ls (requestEvents p bytes i)) := by
  cases i with
  | init =>
    simp only [requestEvents, initEvents, replayLatch_append, replayLatch_outputEvents]
    exact atRest_frames _ _ (atRest_frames _ _ (atRest_frames _ _ (atRest_hardReset h)))
  | displayOn | displayOff | invertDisplay | xmit => exact atRest_frame _ _ h
  | setContrast | display => exact atRest_frames _ _ h
  | hardReset => exact atRest_hardReset h
  | setXy x page =>
    simp only [requestEvents]
    split
    · exact atRest_frames _ _ h
    · exact h
  | _ => exact h

/-- Only INIT makes a line an output (R101). -/
theorem replayOutputs_requestEvents {p : Params} (bytes : List Byte) {i : Instr} (hi : i ≠ .init) (ls : Lines) :
    replayOutputs ls (requestEvents p bytes i) = ls := by
  cases i with
  | init => exact absurd rfl hi
  | displayOn | displayOff | invertDisplay | xmit => exact replayOutputs_frameEvents ..
  | setContrast => exact replayOutputs_commandEvents ..
  | display => exact replayOutputs_dataEvents ..
  | hardReset => rfl
  | setXy x page =>
    simp only [requestEvents]
    split
    · exact replayOutputs_commandEvents ..
    · rfl
  | _ => rfl

theorem linesAreOutputs_requestDone (i : Instr) (s : State) :
    linesAreOutputs (requestDone i s) = (linesAreOutputs s || i == .init) := by
  by_cases hi : i = .init
  · subst hi
    rw [show linesAreOutputs (requestDone .init s) = true by
      rw [← linesAreOutputs_makeLinesOutputs s]
      refine linesAreOutputs_congr ?_ ?_ <;> rw [makeLinesOutputs_eq]
      · exact replayOutputs_initEvents _ _
      · rfl]
    simp
  · have : linesAreOutputs (requestDone i s) = linesAreOutputs s :=
      linesAreOutputs_congr (replayOutputs_requestEvents _ hi _) rfl
    simp [this, hi]

/-- A shadow update of a request never leads from another phase to `Uninitialized` (R128). -/
theorem requestShadow_phase (i : Instr) {sh : Shadow} (h : sh.phase ≠ .uninitialized) :
    (requestShadow i sh).phase ≠ .uninitialized := by
  cases i with
  | xmit kind byte =>
    cases kind
    · exact fun e => Phase.noConfusion e
    · exact h
  | displayOn | displayOff | invertDisplay =>
    simp only [requestShadow, setPhase]
    revert h
    cases sh.phase <;> simp [phaseAfterDisplayOn, phaseAfterDisplayOff, phaseAfterInvert] <;> split <;> simp
  | hardReset => exact fun e => Phase.noConfusion e
  | setXy x page =>
    simp only [requestShadow]
    split <;> exact h
  | _ => exact h

/-- The response register stays the last response (R22). -/
theorem response_last (i : Instr) (s : State) (h : s.rsp = s.responses.getLastD 0) :
    (requestDone i s).rsp = (requestDone i s).responses.getLastD 0 := by
  show (requestResponse i s).getD s.rsp = (s.responses ++ (requestResponse i s).toList).getLastD 0
  cases requestResponse i s with
  | none => simpa using h
  | some v => simp

end Sys2Proof.Machine
end

