-- ==== Sys2Proof/Laws/PerInstr.lean ====
section
/-!
SUPPORT. The statements made of every request in turn: the word of a request carries the opcode R72 gives it, and that
opcode is not reserved (R72, R74).
-/
namespace Sys2Proof.Laws

theorem opcodeOf_mem (i : Instr) : opcodeOf i ∈ assignedOpcodes := by
  cases i <;> simp [opcodeOf, assignedOpcodes]

/-- The top byte of the request word is the row's opcode, one of those R72 assigns. -/
def EncodedOpcode.Statement (i : Instr) : Prop :=
  fieldOp (encode i) = opcodeOf i ∧ opcodeOf i ∈ assignedOpcodes

theorem EncodedOpcode.init : EncodedOpcode.Statement .init :=
  ⟨fieldOp_packWord _ _ _ _ _ _, opcodeOf_mem _⟩

theorem EncodedOpcode.displayOn : EncodedOpcode.Statement .displayOn :=
  ⟨fieldOp_packWord _ _ _ _ _ _, opcodeOf_mem _⟩

theorem EncodedOpcode.displayOff : EncodedOpcode.Statement .displayOff :=
  ⟨fieldOp_packWord _ _ _ _ _ _, opcodeOf_mem _⟩

theorem EncodedOpcode.setContrast (value : Byte) : EncodedOpcode.Statement (.setContrast value) :=
  ⟨fieldOp_packWord _ _ _ _ _ _, opcodeOf_mem _⟩

theorem EncodedOpcode.invertDisplay (state : Byte) : EncodedOpcode.Statement (.invertDisplay state) :=
  ⟨fieldOp_packWord _ _ _ _ _ _, opcodeOf_mem _⟩

theorem EncodedOpcode.clearDisplay : EncodedOpcode.Statement .clearDisplay :=
  ⟨fieldOp_packWord _ _ _ _ _ _, opcodeOf_mem _⟩

theorem EncodedOpcode.display : EncodedOpcode.Statement .display :=
  ⟨fieldOp_packWord _ _ _ _ _ _, opcodeOf_mem _⟩

theorem EncodedOpcode.getBufferSize : EncodedOpcode.Statement .getBufferSize :=
  ⟨fieldOp_packWord _ _ _ _ _ _, opcodeOf_mem _⟩

theorem EncodedOpcode.fbRead (index : Nat) : EncodedOpcode.Statement (.fbRead index) :=
  ⟨fieldOp_packWord _ _ _ _ _ _, opcodeOf_mem _⟩

theorem EncodedOpcode.fbWrite (index : Nat) (byte : Byte) : EncodedOpcode.Statement (.fbWrite index byte) :=
  ⟨fieldOp_packWord _ _ _ _ _ _, opcodeOf_mem _⟩

theorem EncodedOpcode.getPixel (x y : Int) : EncodedOpcode.Statement (.getPixel x y) :=
  ⟨fieldOp_packWord _ _ _ _ _ _, opcodeOf_mem _⟩

theorem EncodedOpcode.drawPixel (x y : Int) (color : Byte) : EncodedOpcode.Statement (.drawPixel x y color) :=
  ⟨fieldOp_packWord _ _ _ _ _ _, opcodeOf_mem _⟩

theorem EncodedOpcode.drawRect (x y w h : Int) (color : Byte) : EncodedOpcode.Statement (.drawRect x y w h color) :=
  ⟨fieldOp_packWord _ _ _ _ _ _, opcodeOf_mem _⟩

theorem EncodedOpcode.fillRect (x y w h : Int) (color : Byte) : EncodedOpcode.Statement (.fillRect x y w h color) :=
  ⟨fieldOp_packWord _ _ _ _ _ _, opcodeOf_mem _⟩

theorem EncodedOpcode.drawSquare (x y a : Int) (color : Byte) : EncodedOpcode.Statement (.drawSquare x y a color) :=
  ⟨fieldOp_packWord _ _ _ _ _ _, opcodeOf_mem _⟩

theorem EncodedOpcode.fillSquare (x y a : Int) (color : Byte) : EncodedOpcode.Statement (.fillSquare x y a color) :=
  ⟨fieldOp_packWord _ _ _ _ _ _, opcodeOf_mem _⟩

theorem EncodedOpcode.fillScreen (color : Byte) : EncodedOpcode.Statement (.fillScreen color) :=
  ⟨fieldOp_packWord _ _ _ _ _ _, opcodeOf_mem _⟩

theorem EncodedOpcode.xmit (kind : Kind) (byte : Byte) : EncodedOpcode.Statement (.xmit kind byte) :=
  ⟨fieldOp_packWord _ _ _ _ _ _, opcodeOf_mem _⟩

theorem EncodedOpcode.hardReset : EncodedOpcode.Statement .hardReset :=
  ⟨fieldOp_packWord _ _ _ _ _ _, opcodeOf_mem _⟩

theorem EncodedOpcode.setXy (x page : Int) : EncodedOpcode.Statement (.setXy x page) :=
  ⟨fieldOp_packWord _ _ _ _ _ _, opcodeOf_mem _⟩

end Sys2Proof.Laws
end

