-- ==== Sys2Proof/Laws/Step.lean ====
section
/-!
SUPPORT. Everything one step can do (R17, R21, R74).
-/
namespace Sys2Proof.Machine

/-- A step leaves an idle block with no request presented as it is; otherwise it runs one request, or ends a reserved one,
in a state `u` that differs from `s` in the sequencer, `busy` and the requests to come alone. -/
theorem step_cases (s : State) :
    (step s = .next s ∧ s.busy = false ∧ s.program = []) ∨
    ∃ u : State, (u.params = s.params ∧ u.binding = s.binding ∧ u.fb = s.fb ∧ u.latch = s.latch ∧ u.oe = s.oe ∧
        u.shadow = s.shadow ∧ u.trace = s.trace ∧ u.rsp = s.rsp ∧ u.responses = s.responses) ∧
      ((∃ i, step s = .next (requestDone i u)) ∨ step s = .next (retire u)) := by
  have run : ∀ u, (∃ i, runRequest u = .next (requestDone i u)) ∨ runRequest u = .next (retire u) := by
    intro u
    unfold runRequest
    split
    · next i _ => exact .inl ⟨i, exec_eq i u⟩
    · exact .inr rfl
  unfold step
  split
  · exact .inr ⟨s, by simp, run s⟩
  · next h1 h2 => exact .inl ⟨rfl, h1, h2⟩
  · next w rest h1 h2 => exact .inr ⟨accept w rest s, by simp, run _⟩

end Sys2Proof.Machine
end

