-- ==== Sys2Proof/Tests/Slice0.lean ====
section
/-!
SUPPORT. Tests of the model on small states. Expected values are the spec's: the request words and effects of
95_test_vectors.md (V1 to V15 and 2.4), the encoding tables of 30_encoding.md, the constraints of R81. The `witness_`
theorems give, for each statement that has hypotheses, concrete states and operands that meet them.
-/
namespace Sys2Proof.Tests

open Sys2Proof Sys2Proof.Machine

/-! ### States -/

/-- The illustrative command bytes of 93_implementation_defined.md G3. -/
def testCmd : CmdTable where
  powerPumpOn := 0x2F
  addrHorizontal := 0xAA
  tempcompOn := 0xEB
  frameFreq80 := 0xEF
  oscInternal := 0x3A
  pumpMultX2 := 0x3D
  bias := 0x30
  vopHi := 0x24
  vopLoBase := 0x90
  displayOn := 0xAF
  displayOff := 0xAE
  displayAllOn := 0xA5
  displayNormal := 0xA6
  invertFlag := 0x01
  xaddrLoBase := 0x00
  xaddrHiBase := 0x10
  yaddrBase := 0xB0

def testParams : Params where
  dcBinding := .dedicated
  dcCmdLevel := false
  clkIdle := false
  lineResetLevel := { cs := true, clk := false, data := false, dc := false, rst := true }
  defaultContrast := 5
  cmd := testCmd
  xhi := Config.xhi

/-- Right after reset. -/
def fresh : State := State.construct testParams { cs := 1, clk := 2, data := 3, rst := 4 }

/-- The same with the select line on the data line (V4). -/
def freshShared : State :=
  State.construct { testParams with dcBinding := .sharedWithData } { cs := 1, clk := 2, data := 3, rst := 4 }

/-- Lines, outputs and shadow as INIT leaves them (V6). -/
def ready : State :=
  { fresh with
    oe := { cs := true, clk := true, data := true, dc := true, rst := true }
    latch := { cs := true, clk := false, data := true, dc := false, rst := true }
    shadow := { phase := .allPixelsOn, contrast := some 5, addr := some .horizontal, home := true } }

/-- `ready` with another phase. -/
def readyIn (p : Phase) : State := { ready with shadow := { ready.shadow with phase := p } }

/-- A framebuffer byte preset. -/
def withByte (s : State) (a : Nat) (v : Byte) : State := { s with fb := Memory.write s.fb a v }

/-- One step of the block on one request word, and what is read off the state it leaves. -/
def afterWord {α : Type} (s : State) (w : Nat) (f : State → α) : Option α :=
  match step (s.withFetchWord 80 w) with
  | .next t => some (f t)
  | .fault _ => none
  | .refused _ => none

/-- The bytes and kinds a state's trace sends. -/
def sent (s : State) : List (Option (Kind × Byte × Bool)) := sentFrames s.params s.params.lineResetLevel s.trace

/-! ### WellFormed: one ill-formed term for each check -/

theorem test_wf_accepts_bounds :
    (Instr.fbRead 65535).wellFormed = true ∧ (Instr.drawRect (-32768) 32767 (-32768) 32767 0).wellFormed = true ∧
    testParams.wellFormed = true := by decide

theorem test_wf_refuses_index :
    (Instr.fbRead 65536).wellFormed = false ∧ (Instr.fbWrite 65536 0).wellFormed = false := by decide

theorem test_wf_refuses_pixel :
    (Instr.getPixel (-32769) 0).wellFormed = false ∧ (Instr.getPixel 0 32768).wellFormed = false ∧
    (Instr.drawPixel 32768 0 1).wellFormed = false ∧ (Instr.drawPixel 0 (-32769) 1).wellFormed = false ∧
    (Instr.setXy 32768 0).wellFormed = false ∧ (Instr.setXy 0 32768).wellFormed = false := by decide

theorem test_wf_refuses_rect :
    (Instr.drawRect 32768 0 0 0 1).wellFormed = false ∧ (Instr.drawRect 0 32768 0 0 1).wellFormed = false ∧
    (Instr.drawRect 0 0 32768 0 1).wellFormed = false ∧ (Instr.drawRect 0 0 0 32768 1).wellFormed = false ∧
    (Instr.fillRect (-32769) 0 0 0 1).wellFormed = false ∧ (Instr.fillRect 0 (-32769) 0 0 1).wellFormed = false ∧
    (Instr.fillRect 0 0 (-32769) 0 1).wellFormed = false ∧
    (Instr.fillRect 0 0 0 (-32769) 1).wellFormed = false := by decide

theorem test_wf_refuses_square :
    (Instr.drawSquare 32768 0 0 1).wellFormed = false ∧ (Instr.drawSquare 0 32768 0 1).wellFormed = false ∧
    (Instr.drawSquare 0 0 32768 1).wellFormed = false ∧ (Instr.fillSquare 32768 0 0 1).wellFormed = false ∧
    (Instr.fillSquare 0 32768 0 1).wellFormed = false ∧ (Instr.fillSquare 0 0 32768 1).wellFormed = false := by decide

/-- R81: a base byte with a low-nibble bit, no or two invert bits, a display-normal byte that has the invert bit, and a
high-nibble table of the wrong length. -/
theorem test_wf_refuses_params :
    { testCmd with vopLoBase := 0x91 }.wellFormed = false ∧ { testCmd with xaddrLoBase := 0x08 }.wellFormed = false ∧
    { testCmd with xaddrHiBase := 0x11 }.wellFormed = false ∧ { testCmd with yaddrBase := 0xB4 }.wellFormed = false ∧
    { testCmd with invertFlag := 0x00 }.wellFormed = false ∧ { testCmd with invertFlag := 0x11 }.wellFormed = false ∧
    { testCmd with displayNormal := 0xA7 }.wellFormed = false ∧
    { testParams with xhi := [0] }.wellFormed = false := by decide

/-! ### Decoding of words written out from R70 to R72 -/

theorem test_decode_line_driver :
    decode 0x200000000000000000A5#80 = .ok (.xmit .command 0xA5) ∧
    decode 0x20000100000000000000#80 = .ok (.xmit .data 0x00) ∧
    decode 0x21000000000000000000#80 = .ok .hardReset := by decide

theorem test_decode_protocol :
    decode 0x01000000000000000000#80 = .ok .init ∧ decode 0x02000000000000000000#80 = .ok .displayOn ∧
    decode 0x03000000000000000000#80 = .ok .displayOff ∧ decode 0x0400000000000000003A#80 = .ok (.setContrast 0x3A) ∧
    decode 0x05000000000000000080#80 = .ok (.invertDisplay 0x80) ∧
    decode 0x22FFFF00000000000000#80 = .ok (.setXy (-1) 0) ∧
    decode 0x22005F00080000000000#80 = .ok (.setXy 95 8) := by decide

theorem test_decode_framebuffer :
    decode 0x06000000000000000000#80 = .ok .clearDisplay ∧ decode 0x08000000000000000000#80 = .ok .getBufferSize ∧
    decode 0x09FFFF00000000000000#80 = .ok (.fbRead 65535) ∧
    decode 0x0A035F000000000000FF#80 = .ok (.fbWrite 863 0xFF) ∧
    decode 0x0B000A00410000000000#80 = .ok (.getPixel 10 65) ∧
    decode 0x0C80007FFF0000000001#80 = .ok (.drawPixel (-32768) 32767 1) ∧
    decode 0x11000000000000000040#80 = .ok (.fillScreen 0x40) := by decide

theorem test_decode_drawing :
    decode 0x0D000500050003FFFF01#80 = .ok (.drawRect 5 5 3 (-1) 1) ∧
    decode 0x0E005E003C0004000A01#80 = .ok (.fillRect 94 60 4 10 1) ∧
    decode 0x0F000000010003000001#80 = .ok (.drawSquare 0 1 3 1) ∧
    decode 0x10000A000B0005000001#80 = .ok (.fillSquare 10 11 5 1) := by decide

theorem test_decode_stream : decode 0x07000000000000000000#80 = .ok .display := by decide

/-- V10. -/
theorem test_decode_reserved :
    decode 0x00000000000000000000#80 = .error (.reservedOpcode 0x00) ∧
    decode 0xFF123456789ABCDEF012#80 = .error (.reservedOpcode 0xFF) := by decide

theorem test_decodeTableWord :
    decodeTableWord 80 0x0C002800280000000001 = some (.drawPixel 40 40 1) ∧
    decodeTableWord 80 0x12000000000000000000 = none := by decide

/-! ### One step -/

/-- V10: a reserved opcode changes nothing. -/
theorem test_step_reserved :
    afterWord ready 0xFF123456789ABCDEF012 (fun t => (t.trace, t.fb, t.rsp, t.busy)) = some ([], [], 0, false) := by
  decide

/-- V1. -/
theorem test_xmit_command :
    afterWord fresh 0x200000000000000000A5 (fun t => (t.trace.length, sent t)) =
      some (29, [some (.command, 0xA5, false)]) ∧
    afterWord fresh 0x200000000000000000A5 (fun t => (t.latch, t.shadow)) =
      some ({ cs := true, clk := false, data := true, dc := false, rst := true }, fresh.shadow) := by decide

/-- V4. -/
theorem test_xmit_data_shared :
    afterWord freshShared 0x20000100000000000080
      (fun t => clockSamples true t.params.lineResetLevel t.trace) =
    some [(false, true), (false, true), (false, false), (false, false), (false, false), (false, false),
      (false, false), (false, false), (false, false)] := by decide

/-- V5. -/
theorem test_hardReset :
    afterWord ready 0x21000000000000000000 (fun t => (t.trace, t.shadow)) =
      some ([.w .rst false, .h 10, .w .rst true, .h 10],
        { phase := .reset, contrast := none, addr := none, home := true }) := by decide

theorem test_hardReset_before_init :
    afterWord fresh 0x21000000000000000000 (fun t => t.shadow) = some fresh.shadow := by decide

/-- V6, the shadow and the outputs. -/
theorem test_init : ∃ t, exec .init fresh = .next t ∧ t.shadow = ready.shadow ∧ linesAreOutputs t = true :=
  ⟨_, exec_eq _ _, rfl, by rw [linesAreOutputs_requestDone]; rfl⟩

/-- V6, the events of steps 0 and 2. -/
theorem test_init_begins :
    (initStep 2 (initStep 0 fresh)).trace =
      [.oe .cs, .oe .clk, .oe .data, .oe .rst, .oe .dc, .w .rst false, .h 10, .w .rst true, .h 10] := by decide

/-- V8. -/
theorem test_displayOn :
    afterWord ready 0x02000000000000000000 (fun t => (sent t, t.shadow.phase)) =
      some ([some (.command, 0xAF, false)], .normal) := by decide

theorem test_displayOff :
    afterWord ready 0x03000000000000000000 (fun t => (sent t, t.shadow.phase)) =
      some ([some (.command, 0xAE, false)], .off) := by decide

theorem test_invertDisplay_on :
    afterWord ready 0x05000000000000000080 (fun t => (sent t, t.shadow.phase)) =
      some ([some (.command, 0xA7, false)], .inverted) := by decide

theorem test_invertDisplay_off :
    afterWord ready 0x05000000000000000000 (fun t => (sent t, t.shadow.phase)) =
      some ([some (.command, 0xA6, false)], .normal) := by decide

/-- V7. -/
theorem test_setContrast :
    afterWord ready 0x0400000000000000003A
        (fun t => ((sent t).map (Option.map fun f => (f.1, f.2.1)), t.shadow.contrast)) =
      some ([some (.command, 0x24), some (.command, 0x9A)], some 0xA) := by decide

/-- V9. -/
theorem test_setXy :
    afterWord ready 0x22002500050000000000
        (fun t => ((sent t).map (Option.map fun f => (f.1, f.2.1)), t.shadow.home)) =
      some ([some (.command, 0x05), some (.command, 0x12), some (.command, 0xB5)], false) := by decide

theorem test_setXy_out_of_range :
    afterWord ready 0x22000000090000000000 (fun t => (t.trace, t.shadow.home)) = some ([], true) := by decide

/-- V11. -/
theorem test_drawPixel :
    afterWord fresh 0x0C000A000D0000000001 (fun t => t.fb) = some [(106, 0x20)] ∧
    afterWord (withByte fresh 106 0x7C) 0x0C000A000C0000000000 (fun t => t.fb) = some [(106, 0x6C)] := by
  decide

theorem test_drawPixel_out_of_range :
    afterWord fresh 0x0C000000470000000001 (fun t => t.fb) = some [] ∧
    afterWord fresh 0x0CFFFF00000000000001 (fun t => t.fb) = some [] := by decide

/-- V12. -/
theorem test_getPixel :
    afterWord (withByte fresh 106 0x7C) 0x0B000A000E0000000000 (fun t => (t.rsp, t.responses)) = some (1, [1]) ∧
    afterWord (withByte fresh 106 0x7C) 0x0B000A000F0000000000 (fun t => t.rsp) = some 0 := by decide

theorem test_getPixel_out_of_range :
    afterWord (withByte fresh 106 0x7C) 0x0BFFFF000A0000000000 (fun t => t.responses) = some [0] := by
  decide

/-- V13. -/
theorem test_fillScreen :
    ∃ t, exec (.fillScreen 0x40) fresh = .next t ∧ Memory.read t.fb 863 = 0xFF ∧ Memory.read t.fb 864 = 0 :=
  ⟨_, rfl, Memory.read_fill _ _ _, Memory.read_fill _ _ _⟩

theorem test_clearDisplay :
    ∃ t, exec .clearDisplay (withByte fresh 863 0xFF) = .next t ∧ Memory.read t.fb 863 = 0 :=
  ⟨_, rfl, Memory.read_fill _ _ _⟩

theorem test_getBufferSize :
    afterWord ready 0x08000000000000000000 (fun t => t.rsp) = some 0x0360 := by decide

/-- V14. -/
theorem test_fbWrite :
    afterWord fresh 0x0A035F000000000000FF (fun t => t.fb) = some [(863, 0xFF)] ∧
    afterWord fresh 0x0A0360000000000000FF (fun t => t.fb) = some [] := by decide

theorem test_fbRead :
    afterWord (withByte fresh 106 0x7C) 0x09006A00000000000000 (fun t => t.rsp) = some 0x007C ∧
    afterWord (withByte fresh 106 0x7C) 0x09036000000000000000 (fun t => t.rsp) = some 0 := by decide

/-- V14: the PUSH_BUFFER of two bytes, and one too large. -/
theorem test_pushBuffer :
    pushBuffer [0xFF, 0x01] 2 = [.fbWrite 0 0xFF, .fbWrite 1 0x01] ∧ pushBuffer [0xFF, 0x01] 865 = [] := by decide

/-- 95_test_vectors.md 2.4, the outline across a page boundary and the clipped one. -/
theorem test_drawRect :
    afterWord fresh 0x0D000000060003000401 (fun t => t.fb) =
      some [(0, 0xC0), (1, 0x40), (2, 0xC0), (96, 0x03), (97, 0x02), (98, 0x03)] := by decide

theorem test_drawRect_clipped :
    afterWord fresh 0x0DFFFEFFFE0005000501 (fun t => t.fb) = some [(0, 0x04), (1, 0x04), (2, 0x07)] ∧
    afterWord fresh 0x0D000500050003FFFF01 (fun t => t.fb) = some [] := by decide

set_option maxRecDepth 4000 in
theorem test_fillRect_clipped :
    afterWord fresh 0x0E005E003C0004000A01 (fun t => t.fb) =
      some [(766, 0xF0), (767, 0xF0), (862, 0x01), (863, 0x01)] := by decide

theorem test_drawSquare :
    afterWord fresh 0x0F000000000003000001 (fun t => t.fb) = some [(0, 0x07), (1, 0x05), (2, 0x07)] := by
  decide

set_option maxRecDepth 4000 in
theorem test_fillSquare :
    afterWord fresh 0x10000A000A0005000001 (fun t => t.fb) =
      some [(106, 0x7C), (107, 0x7C), (108, 0x7C), (109, 0x7C), (110, 0x7C)] := by decide

/-- V15, frames 0 and 1 and the address after column 95. -/
theorem test_display_first_bytes :
    (sent (streamByte (nextAddress (streamByte (startAddress (withByte fresh 0 0x81)))))) =
      [some (.data, 0x81, false), some (.data, 0x00, true)] ∧
    flushAddress (nextAddress { fresh with seq := { fresh.seq with col := 95, page := 0 } }) = 96 := by decide

theorem test_display : ∃ t, exec .display ready = .next t ∧ t.shadow = ready.shadow ∧ t.fb = [] :=
  ⟨_, exec_eq _ _, rfl, rfl⟩

/-! ### Witnesses: the hypotheses of each statement that has some, met together -/

/-- StepKeepsTheInvariant, StepKeepsLinesExplainedByTrace, ConstructionNeverChanges: before INIT and after it, with a
request and without one. -/
theorem witness_step_invariants :
    fresh.Inv ∧ ready.Inv ∧ fresh.TraceExplainsLines ∧ step fresh = .next fresh ∧
    (∃ t, step (fresh.withFetchWord 80 0x0C000A000D0000000001) = .next t) ∧
    (∃ t, step (ready.withFetchWord 80 0x21000000000000000000) = .next t) :=
  ⟨⟨Memory.wf_nil, by decide⟩, ⟨Memory.wf_nil, by decide⟩, ⟨rfl, rfl⟩, rfl, ⟨_, rfl⟩, ⟨_, rfl⟩⟩

/-- DecodeInvertsEncode, at the ends of the operand ranges. -/
theorem witness_decodeInvertsEncode :
    (Instr.fillRect (-32768) 32767 (-32768) 32767 0xFF).wellFormed = true ∧ (Instr.fbWrite 65535 0).wellFormed = true ∧
    (Instr.xmit .data 0x80).wellFormed = true := by decide

/-- EncodeInvertsDecodeOnUsedBits, on a word with bits the operation does not use. -/
theorem witness_encodeInvertsDecode : decode 0x20FFFF0123456789AB80#80 = .ok (.xmit .data 0x80) := by decide

/-- UnusedBitsDoNotMatter: two different words that agree in the used bits. -/
theorem witness_unusedBits :
    (0x20FFFF0123456789AB80#80 &&& usedBits 0x20) = 0x20000100000000000080#80 &&& usedBits 0x20 ∧
    fieldOp 0x20FFFF0123456789AB80#80 = 0x20 := by decide

/-- StepRunsTheDecodedRequest. -/
theorem witness_stepRuns :
    (present [0x0A035F000000000000FF#80] fresh).busy = false ∧
    (present [0x0A035F000000000000FF#80] fresh).program = 0x0A035F000000000000FF#80 :: [] ∧
    decode 0x0A035F000000000000FF#80 = .ok (.fbWrite 863 0xFF) := by decide

/-- ReservedRequestIsASilentNoOp, at the ends of each reserved range. -/
theorem witness_reserved :
    (present [0x00000000000000000000#80] ready).busy = false ∧
    (present [0x00000000000000000000#80] ready).program = 0x00000000000000000000#80 :: [] ∧
    (fieldOp 0x00000000000000000000#80).toNat = 0x00 ∧
    0x12 ≤ (fieldOp 0x12000000000000000000#80).toNat ∧ (fieldOp 0x1F000000000000000000#80).toNat ≤ 0x1F ∧
    0x23 ≤ (fieldOp 0x23000000000000000000#80).toNat ∧ 0x23 ≤ (fieldOp 0xFF000000000000000000#80).toNat := by decide

/-- RequestsAreTakenOnlyWhenReady: an idle block with nothing presented, and a block in a request. -/
theorem witness_ready :
    (fresh.busy = false ∧ fresh.program = []) ∧
    (accept 0x0C000A000D0000000001#80 [0x07000000000000000000#80] fresh).busy = true ∧
    (∃ t, step (accept 0x0C000A000D0000000001#80 [0x07000000000000000000#80] fresh) = .next t) :=
  ⟨⟨rfl, rfl⟩, rfl, ⟨_, rfl⟩⟩

/-- FrameHasTwentyNineWrites, FrameDecodesToTheByteSent, InitEventCounts, DisplayOnTheWire, SharedSelectLineIsNeverWritten:
both bindings of the select line. -/
theorem witness_bindings :
    testParams.dcBinding = .dedicated ∧ freshShared.params.dcBinding = .sharedWithData ∧
    exec (.xmit .data 0x80) freshShared = .next (requestDone (.xmit .data 0x80) freshShared) :=
  ⟨rfl, rfl, exec_eq _ _⟩

/-- The clauses of the request words: XMIT, HARD_RESET, INIT, DISPLAY_ON, DISPLAY_OFF, INVERT_DISPLAY, SET_CONTRAST, DISPLAY. -/
theorem witness_words_lines :
    fieldOp 0x21000000000000000000#80 = 0x21 ∧ fieldOp 0x01000000000000000000#80 = 0x01 ∧
    fieldOp 0x02000000000000000000#80 = 0x02 ∧ fieldOp 0x03000000000000000000#80 = 0x03 ∧
    fieldOp 0x05000000000000000080#80 = 0x05 ∧ fieldOp 0x0400000000000000003A#80 = 0x04 ∧
    fieldOp 0x07000000000000000000#80 = 0x07 := by decide

/-- The clauses of the request words: the framebuffer and the shapes. -/
theorem witness_words_framebuffer :
    fieldOp 0x06000000000000000000#80 = 0x06 ∧ fieldOp 0x11000000000000000001#80 = 0x11 ∧
    fieldOp 0x0C002800280000000001#80 = 0x0C ∧ fieldOp 0x08000000000000000000#80 = 0x08 ∧
    fieldOp 0x0D000200030004000501#80 = 0x0D ∧ fieldOp 0x0E005E003C0004000A01#80 = 0x0E ∧
    fieldOp 0x0F000000000003000001#80 = 0x0F ∧ fieldOp 0x10000A000A0005000001#80 = 0x10 := by decide

/-- DisplayModeRequestsMoveThePhase, and the outputs premise of the shadow clauses of XMIT, HARD_RESET, SET_CONTRAST and
SET_XY. -/
theorem witness_phases :
    linesAreOutputs ready = true ∧ linesAreOutputs fresh = false ∧
    (readyIn .off).shadow.phase ∈ [Phase.configured, .normal, .allPixelsOn, .inverted, .off] ∧
    (readyIn .unknown).shadow.phase ∈ [Phase.reset, .unknown] ∧
    (readyIn .inverted).shadow.phase ∈ [Phase.normal, .allPixelsOn, .inverted] ∧
    (readyIn .off).shadow.phase = .off ∧ (readyIn .configured).shadow.phase ∈ [Phase.reset, .configured, .unknown] ∧
    (0x80 : Byte) ≠ 0 ∧ (0 : Byte) = 0 := by decide

/-- InvertCommandsDiffer. -/
theorem witness_invertCommandsDiffer : testParams.wellFormed = true ∧ (0x01 : Byte) ≠ 0 := by decide

/-- SetXySendsThreeCommandsInRange, both clauses at the ends of the ranges. -/
theorem witness_setXy :
    ((0 : Nat) < 96 ∧ (0 : Nat) < 9) ∧ ((95 : Nat) < 96 ∧ (8 : Nat) < 9) ∧
    ((-1 : Int) < 0 ∨ (96 : Int) ≤ -1 ∨ (0 : Int) < 0 ∨ (9 : Int) ≤ 0) ∧
    ((96 : Int) < 0 ∨ (96 : Int) ≤ 96 ∨ (0 : Int) < 0 ∨ (9 : Int) ≤ 0) ∧
    ((0 : Int) < 0 ∨ (96 : Int) ≤ 0 ∨ (-1 : Int) < 0 ∨ (9 : Int) ≤ -1) ∧
    ((95 : Int) < 0 ∨ (96 : Int) ≤ 95 ∨ (9 : Int) < 0 ∨ (9 : Int) ≤ 9) := by decide

/-- ClearDisplayZeroesTheFramebuffer, FillScreenFillsEveryByte, FbReadRespondsTheByte, FbWriteReplacesTheByte: the last
index inside and the first outside, both colours. -/
theorem witness_indices :
    (863 : Nat) < 864 ∧ (864 : Nat) ≤ 864 ∧ (0 : Nat) ≠ 863 ∧ (0x40 : Byte) ≠ 0 ∧ (0 : Byte) = 0 := by decide

/-- DrawPixelSetsOrClearsOneBit, GetPixelRespondsTheBit, DrawnPixelReadsBack, FilledScreenReadsFilled: the corners of the
display, and one step outside each edge. -/
theorem witness_pixels :
    ((0 : Nat) < 96 ∧ (0 : Nat) < 65) ∧ ((95 : Nat) < 96 ∧ (64 : Nat) < 65) ∧ ((3 : Nat) < 8 ∧ (3 : Nat) ≠ 64 % 8) ∧
    (1 : Nat) ≠ 95 + 64 / 8 * 96 ∧
    ((-1 : Int) < 0 ∨ (96 : Int) ≤ -1 ∨ (0 : Int) < 0 ∨ (65 : Int) ≤ 0) ∧
    ((96 : Int) < 0 ∨ (96 : Int) ≤ 96 ∨ (0 : Int) < 0 ∨ (65 : Int) ≤ 0) ∧
    ((0 : Int) < 0 ∨ (96 : Int) ≤ 0 ∨ (-1 : Int) < 0 ∨ (65 : Int) ≤ -1) ∧
    ((0 : Int) < 0 ∨ (96 : Int) ≤ 0 ∨ (65 : Int) < 0 ∨ (65 : Int) ≤ 65) := by decide

/-- PushBufferCopiesAPrefix: a buffer that is long enough, the size that is too large, and indices on both sides. -/
theorem witness_pushBuffer :
    ((2 : Nat) ≤ 864 ∧ 2 ≤ [0xFF#8, 0x01#8].length) ∧ ((1 : Nat) < 2 ∧ (2 : Nat) ≤ 2) ∧
    ((864 : Nat) ≤ 864 ∧ 864 ≤ (List.replicate 864 0#8).length) ∧ (864 : Nat) < 865 :=
  ⟨by decide, by decide, ⟨Nat.le_refl _, by rw [List.length_replicate]⟩, by decide⟩

/-- PushingWhatWasReadChangesNothing. -/
theorem witness_pushing : Memory.wf (withByte fresh 863 0xFF).fb := by decide

/-- DrawRectPaintsTheOutline, FillRectPaintsTheBox, DrawSquareIsASquareDrawRect, FillSquareIsASquareFillRect: clipped,
degenerate and extreme boxes. -/
theorem witness_shapes :
    (Instr.drawRect (-2) (-2) 5 5 1).wellFormed = true ∧ (Instr.drawRect 5 5 3 (-1) 1).wellFormed = true ∧
    (Instr.fillRect 94 60 4 10 1).wellFormed = true ∧
    (Instr.fillRect (-32768) (-32768) 32767 32767 0).wellFormed = true ∧
    (Instr.drawSquare 0 0 3 1).wellFormed = true ∧ (Instr.fillSquare 32767 32767 32767 0).wellFormed = true := by decide

/-- RectanglePixelCounts: the whole display, and the smallest box. -/
theorem witness_pixelCounts :
    ((1 : Byte) ≠ 0 ∧ (2 : Nat) < 96 ∧ (2 : Nat) < 65 ∧ (0 : Nat) + 96 ≤ 96 ∧ (0 : Nat) + 65 ≤ 65) ∧
    ((2 : Nat) < 3 ∧ (93 : Nat) + 3 ≤ 96 ∧ (62 : Nat) + 3 ≤ 65) ∧ ∀ a, Memory.read fresh.fb a = 0 :=
  ⟨by decide, by decide, fun _ => rfl⟩

/-- ShadowAndTraceFlowNowhere, LinesMoveOnlyByTracedEvents, NoWayBackToUninitialized, OnlyThreeRequestsRespond: a request
that has run; INIT among them, and one that responds. -/
theorem witness_exec :
    exec .displayOn ready = .next (requestDone .displayOn ready) ∧ Instr.displayOn ≠ .init ∧
    exec .init ready = .next (requestDone .init ready) ∧ Lines.get ready.oe .cs = true ∧
    ready.shadow.phase ≠ .uninitialized ∧
    respondingRequest .displayOn = false ∧ exec .getBufferSize ready = .next (requestDone .getBufferSize ready) ∧
    respondingRequest .getBufferSize = true :=
  ⟨exec_eq _ _, by decide, exec_eq _ _, rfl, by decide, rfl, exec_eq _ _, rfl⟩

/-- NoCommandIsSuppressed: two states of other lines and shadow, and a request twice in a row. -/
theorem witness_noCommandIsSuppressed :
    ready.params = fresh.params ∧ (∀ a, a < 864 → Memory.read ready.fb a = Memory.read fresh.fb a) ∧
    exec .displayOn fresh = .next (requestDone .displayOn fresh) ∧
    exec .displayOn ready = .next (requestDone .displayOn ready) ∧
    exec .displayOn (requestDone .displayOn ready) = .next (requestDone .displayOn (requestDone .displayOn ready)) :=
  ⟨rfl, fun _ _ => rfl, exec_eq _ _, exec_eq _ _, exec_eq _ _⟩

/-- BeforeInitNothingReachesTheController, ShadowWaitsForTheLines. -/
theorem witness_beforeInit :
    Instr.displayOn ≠ .init ∧ (∀ l, Lines.get fresh.oe l = false) ∧ linesAreOutputs fresh = false ∧
    exec .displayOn fresh = .next (requestDone .displayOn fresh) :=
  ⟨by decide, fun l => by cases l <;> rfl, rfl, exec_eq _ _⟩

/-- FramebufferRequestsAreSilent, both clauses; OnlyWritingRequestsChangeTheFramebuffer, both forms of its premise. -/
theorem witness_framebufferRequests :
    framebufferRequest (.fbWrite 863 0xFF) = true ∧
    exec (.fbWrite 863 0xFF) ready = .next (requestDone (.fbWrite 863 0xFF) ready) ∧
    exec .init (requestDone (.fbWrite 863 0xFF) ready) =
      .next (requestDone .init (requestDone (.fbWrite 863 0xFF) ready)) ∧
    framebufferRequest .displayOn = false ∧ Instr.displayOn ≠ .init ∧
    exec .displayOn ready = .next (requestDone .displayOn ready) ∧
    respondingRequest (.fbRead 0) = true ∧ exec (.fbRead 0) ready = .next (requestDone (.fbRead 0) ready) :=
  ⟨rfl, exec_eq _ _, exec_eq _ _, rfl, by decide, exec_eq _ _, rfl, exec_eq _ _⟩

/-- NoAccessOutsideTheFramebuffer: the first index outside, and a memory that differs there alone. -/
theorem witness_outside :
    (864 : Nat) ≤ 864 ∧ (∀ a, a < 864 → Memory.read [(864, 0xFF)] a = Memory.read fresh.fb a) ∧
    exec (.fbWrite 864 0xFF) fresh = .next (requestDone (.fbWrite 864 0xFF) fresh) :=
  ⟨Nat.le_refl _, fun _ ha => if_neg (Nat.ne_of_lt ha), exec_eq _ _⟩

end Sys2Proof.Tests
end

/-!
PROOFS. The statements of 10_state.md. They rest on three facts: a request leaves `requestDone` (`exec_eq`), a step keeps
what every request keeps (`step_keeps`), and nothing but events moves a line (`Emits`).
-/
namespace Sys2Proof.Proofs

open Sys2Proof Sys2Proof.Machine

/-! ### What a step can do -/

theorem eq_requestDone_of_exec {i : Instr} {s t : State} (h : exec i s = .next t) : t = requestDone i s := by
  rw [exec_eq] at h
  exact (Host.Outcome.next.inj h).symm

theorem step_of_idle {s : State} (hb : s.busy = false) (hp : s.program = []) : step s = .next s := by
  unfold step
  rw [hb, hp]

theorem step_of_presented {s : State} {w : ReqWord} {rest : List ReqWord} (hb : s.busy = false)
    (hp : s.program = w :: rest) : step s = runRequest (accept w rest s) := by
  unfold step
  rw [hb, hp]

theorem step_of_busy {s : State} (hb : s.busy = true) : step s = runRequest s := by
  unfold step
  rw [hb]

theorem runRequest_of_decoded {s : State} {i : Instr} (h : requestInProgress s = .ok i) : runRequest s = exec i s := by
  unfold runRequest
  rw [h]

theorem requestInProgress_accept (w : ReqWord) (rest : List ReqWord) (s : State) :
    requestInProgress (accept w rest s) = decode w := rfl

/-- Running the request in progress ends it: it has run, or its opcode is reserved (R74). -/
theorem runRequest_cases {s t : State} (h : runRequest s = .next t) :
    (∃ i, t = requestDone i s) ∨ t = retire s := by
  unfold runRequest at h
  split at h
  · exact .inl ⟨_, eq_requestDone_of_exec h⟩
  · exact .inr (Host.Outcome.next.inj h).symm

/-- Two states that may differ in the sequencer, `busy`, the requests to come and the counter of draws alone. -/
structure SameBlock (s u : State) : Prop where
  params : u.params = s.params
  binding : u.binding = s.binding
  fb : u.fb = s.fb
  latch : u.latch = s.latch
  oe : u.oe = s.oe
  shadow : u.shadow = s.shadow
  trace : u.trace = s.trace
  rsp : u.rsp = s.rsp
  responses : u.responses = s.responses

theorem sameBlock_retire (s : State) : SameBlock s (retire s) := ⟨rfl, rfl, rfl, rfl, rfl, rfl, rfl, rfl, rfl⟩

/-- `step_cases` for the state a step leads to. -/
theorem step_next_cases {s t : State} (h : step s = .next t) :
    (t = s ∧ s.busy = false) ∨ ∃ u, SameBlock s u ∧ ((∃ i, t = requestDone i u) ∨ t = retire u) := by
  obtain ⟨hs, hb, -⟩ | ⟨u, ⟨hp, hbi, hf, hl, ho, hsh, htr, hr, hrs⟩, hu⟩ := step_cases s
  · rw [hs] at h
    exact .inl ⟨(Host.Outcome.next.inj h).symm, hb⟩
  · refine .inr ⟨u, ⟨hp, hbi, hf, hl, ho, hsh, htr, hr, hrs⟩, ?_⟩
    obtain ⟨i, hi⟩ | hi := hu <;> rw [hi] at h
    · exact .inl ⟨i, (Host.Outcome.next.inj h).symm⟩
    · exact .inr (Host.Outcome.next.inj h).symm

/-- A property of the block outside the sequencer that every request keeps, every step keeps. -/
theorem step_keeps {P : State → Prop} (same : ∀ s u, SameBlock s u → P s → P u)
    (done : ∀ i s, P s → P (requestDone i s)) {s t : State} (hs : P s) (h : step s = .next t) : P t := by
  obtain ⟨rfl, -⟩ | ⟨u, hu, ⟨i, rfl⟩ | rfl⟩ := step_next_cases h
  · exact hs
  · exact done i u (same s u hu hs)
  · exact same u _ (sameBlock_retire u) (same s u hu hs)

theorem step_busy {s t : State} (h : step s = .next t) : t.busy = false := by
  obtain ⟨rfl, hb⟩ | ⟨u, -, ⟨i, rfl⟩ | rfl⟩ := step_next_cases h
  · exact hb
  · rfl
  · rfl

/-! ### The shadow a request leaves -/

theorem shadowAfter_init (s : State) : shadowAfter .init s =
    { phase := .allPixelsOn, contrast := some s.params.defaultContrast, addr := some .horizontal, home := true } :=
  if_pos rfl

theorem shadowAfter_of_outputs {i : Instr} (hi : i ≠ .init) {s : State} (h : linesAreOutputs s = true) :
    shadowAfter i s = requestShadow i s.shadow := by
  rw [shadowAfter, if_neg hi, if_pos h]

theorem shadowAfter_of_not_outputs {i : Instr} (hi : i ≠ .init) {s : State} (h : linesAreOutputs s = false) :
    shadowAfter i s = s.shadow := by
  rw [shadowAfter, if_neg hi, h, if_neg Bool.false_ne_true]

/-- No request brings the phase back to `Uninitialized` (R32). -/
theorem shadowAfter_phase (i : Instr) {s : State} (h : s.shadow.phase ≠ .uninitialized) :
    (shadowAfter i s).phase ≠ .uninitialized := by
  by_cases hi : i = .init
  · rw [hi, shadowAfter_init]
    exact fun e => Phase.noConfusion e
  · cases ho : linesAreOutputs s
    · rwa [shadowAfter_of_not_outputs hi ho]
    · rw [shadowAfter_of_outputs hi ho]
      exact requestShadow_phase i h

/-! ### The invariant of the block between requests -/

/-- What `State.Inv` says of the block beside `busy`: it holds while a request is in progress too, so `step_keeps` can
carry it through the acceptance. -/
structure Sound (s : State) : Prop where
  fb : Memory.wf s.fb
  rest : AtRest s.params s.latch
  phase : linesAreOutputs s = true ↔ s.shadow.phase ≠ .uninitialized
  quiet : linesAreOutputs s = false → s.shadow = Shadow.atReset
  rsp : s.rsp = s.responses.getLastD 0

theorem inv_iff {s : State} : s.Inv ↔ Sound s ∧ s.busy = false := by
  constructor
  · rintro ⟨hf, hb, hcs, hrst, hclk, hph, hq, hr⟩
    exact ⟨⟨hf, ⟨hcs, hrst, hclk⟩, hph, hq, hr⟩, hb⟩
  · rintro ⟨⟨hf, ⟨hcs, hrst, hclk⟩, hph, hq, hr⟩, hb⟩
    exact ⟨hf, hb, hcs, hrst, hclk, hph, hq, hr⟩

theorem sound_sameBlock {s u : State} (h : SameBlock s u) (hs : Sound s) : Sound u where
  fb := h.fb ▸ hs.fb
  rest := h.params ▸ h.latch ▸ hs.rest
  phase := by rw [linesAreOutputs_congr h.oe h.params, h.shadow]; exact hs.phase
  quiet := by rw [linesAreOutputs_congr h.oe h.params, h.shadow]; exact hs.quiet
  rsp := by rw [h.rsp, h.responses]; exact hs.rsp

theorem sound_requestDone (i : Instr) {s : State} (hs : Sound s) : Sound (requestDone i s) where
  fb := wf_requestFb i hs.fb
  rest := atRest_requestEvents _ i hs.rest
  phase := by
    rw [linesAreOutputs_requestDone, requestDone_shadow]
    by_cases hi : i = .init
    · simp [hi, shadowAfter_init]
    · cases ho : linesAreOutputs s
      · simp [hi, shadowAfter_of_not_outputs hi ho, hs.quiet ho, Shadow.atReset]
      · simpa using shadowAfter_phase i (hs.phase.mp ho)
  quiet := by
    rw [linesAreOutputs_requestDone, Bool.or_eq_false_iff, beq_eq_false_iff_ne]
    rintro ⟨ho, hi⟩
    rw [requestDone_shadow, shadowAfter_of_not_outputs hi ho, hs.quiet ho]
  rsp := response_last i s hs.rsp

/-- Settles O3: the clauses beside `busy` pass through every request (`sound_requestDone`), and a step ends with `busy`
at 0. -/
theorem stepKeepsTheInvariant : Obligations.StepKeepsTheInvariant := by
  intro s t hs h
  obtain ⟨hs, -⟩ := inv_iff.mp hs
  exact inv_iff.mpr ⟨step_keeps (fun _ _ => sound_sameBlock) (fun i _ => sound_requestDone i) hs h, step_busy h⟩

/-! ### The trace and the lines -/

/-- What the trace explained before some events it explains after them. -/
theorem traceExplainsLines_of_emits {s t : State} {evs : List Event} (h : Emits s t evs) (hp : t.params = s.params)
    (hs : s.TraceExplainsLines) : t.TraceExplainsLines := by
  obtain ⟨htr, hl, ho⟩ := h
  obtain ⟨hsl, hso⟩ := hs
  constructor
  · rw [hl, htr, hp, replayLatch_append, ← hsl]
  · rw [ho, htr, replayOutputs_append, ← hso]

theorem traceExplainsLines_sameBlock {s u : State} (h : SameBlock s u) (hs : s.TraceExplainsLines) :
    u.TraceExplainsLines :=
  traceExplainsLines_of_emits (evs := []) ⟨by rw [h.trace, List.append_nil], h.latch, h.oe⟩ h.params hs

/-- Settles O4: every request emits its events (`emits_requestDone`), and replay composes. -/
theorem stepKeepsLinesExplainedByTrace : Obligations.StepKeepsLinesExplainedByTrace := fun _ _ =>
  step_keeps (fun _ _ => traceExplainsLines_sameBlock)
    fun i s => traceExplainsLines_of_emits (emits_requestDone i s) rfl

/-- Settles O52: the events are those of `requestEvents`. -/
theorem linesMoveOnlyByTracedEvents : Obligations.LinesMoveOnlyByTracedEvents := by
  intro i s t h
  obtain rfl := eq_requestDone_of_exec h
  exact ⟨_, emits_requestDone i s⟩

/-! ### What a request does not read -/

/-- The framebuffer a request leaves depends on the framebuffer it finds alone. -/
theorem requestFb_congr (i : Instr) {s u : State} (h : s.fb = u.fb) : requestFb i s = requestFb i u :=
  requestFb_related fbRelation_eq i h

theorem requestResponse_of_fb_eq (i : Instr) {s u : State} (h : s.fb = u.fb) :
    requestResponse i s = requestResponse i u :=
  requestResponse_congr i fun _ _ => by rw [h]

theorem requestDone_setSeq (i : Instr) (s : State) (q : Sequencer) :
    requestDone i { s with seq := q } = requestDone i s := by
  have hfb : requestFb i { s with seq := q } = requestFb i s := requestFb_congr i rfl
  have hrsp : requestResponse i { s with seq := q } = requestResponse i s := requestResponse_of_fb_eq i rfl
  simp only [requestDone, hfb, hrsp]
  rfl

/-- Another shadow and trace show in the shadow and the trace left, and in nothing else. -/
theorem requestDone_setSpec (i : Instr) (s : State) (sh : Shadow) (tr : List Event) :
    requestDone i { s with shadow := sh, trace := tr } =
      { requestDone i s with
        shadow := shadowAfter i { s with shadow := sh, trace := tr }
        trace := tr ++ requestEvents s.params (fbBytes s) i } := by
  have hfb : requestFb i { s with shadow := sh, trace := tr } = requestFb i s := requestFb_congr i rfl
  have hrsp : requestResponse i { s with shadow := sh, trace := tr } = requestResponse i s :=
    requestResponse_of_fb_eq i rfl
  simp only [requestDone, hfb, hrsp]
  rfl

/-- Settles O49: a request reads no working register before it has loaded it, and its end discards them all. -/
theorem workingRegistersDoNotMatter : Obligations.WorkingRegistersDoNotMatter := by
  intro i s q
  rw [exec_eq, exec_eq, requestDone_setSeq]

/-- Settles O50: the two runs differ in the shadow and the trace alone (`requestDone_setSpec`). -/
theorem shadowAndTraceFlowNowhere : Obligations.ShadowAndTraceFlowNowhere := by
  intro i s t sh tr h
  obtain rfl := eq_requestDone_of_exec h
  refine ⟨_, requestEvents s.params (fbBytes s) i, exec_eq _ _, ?_, rfl, ?_⟩ <;> rw [requestDone_setSpec]

/-! ### The output enables -/

/-- A line read after a write to a line. -/
theorem get_set (ls : Lines) (l k : Line) (v : Bool) :
    Lines.get (Lines.set ls l v) k = if k = l then v else Lines.get ls k := by
  cases l <;> cases k <;> rfl

/-- No event makes an output an input again (R15, R101). -/
theorem replayOutputs_keeps_output {l : Line} (evs : List Event) {ls : Lines} (h : Lines.get ls l = true) :
    Lines.get (replayOutputs ls evs) l = true := by
  induction evs generalizing ls with
  | nil => exact h
  | cons e evs ih =>
    rw [replayOutputs_cons]
    apply ih
    cases e with
    | w k v => exact h
    | oe k => rw [outputsAfter, get_set, h, ite_self]
    | h ms => exact h

theorem requestDone_oe_of_ne_init {i : Instr} (hi : i ≠ .init) (s : State) : (requestDone i s).oe = s.oe :=
  replayOutputs_requestEvents _ hi _

/-- Settles O53: only INIT has output events, and `shadowAfter_phase` keeps the phase. -/
theorem noWayBackToUninitialized : Obligations.NoWayBackToUninitialized := by
  intro i s t h
  obtain rfl := eq_requestDone_of_exec h
  exact ⟨fun hi => requestDone_oe_of_ne_init hi s, fun _ => replayOutputs_keeps_output _, shadowAfter_phase i⟩

theorem linesAreOutputs_of_no_output {s : State} (h : ∀ l, Lines.get s.oe l = false) : linesAreOutputs s = false := by
  have hcs : s.oe.cs = false := h .cs
  simp [linesAreOutputs, hcs]

theorem pinLevel_of_not_output {s : State} {l : Line} (h : Lines.get s.oe l = false) : pinLevel s l = none := by
  simp [pinLevel, h]

/-- Settles O54: the output enables stay 0, so no pin is driven and no shadow update is made. -/
theorem beforeInitNothingReachesTheController : Obligations.BeforeInitNothingReachesTheController := by
  intro i s t hi hoe h
  obtain rfl := eq_requestDone_of_exec h
  constructor
  · intro l
    apply pinLevel_of_not_output
    rw [requestDone_oe_of_ne_init hi, hoe]
  · exact shadowAfter_of_not_outputs hi (linesAreOutputs_of_no_output hoe)

/-! ### The response register -/

theorem isSome_requestResponse (i : Instr) (s : State) : (requestResponse i s).isSome = respondingRequest i := by
  cases i <;> rfl

/-- Settles O55: exactly the three requests have a response (`isSome_requestResponse`). -/
theorem onlyThreeRequestsRespond : Obligations.OnlyThreeRequestsRespond := by
  intro i s t h
  obtain rfl := eq_requestDone_of_exec h
  rw [← isSome_requestResponse i s, requestDone_rsp, requestDone_responses]
  cases requestResponse i s <;> simp

/-! ### A shared select line -/

/-- Whether an event writes line `l` or makes it an output. -/
def touches (l : Line) : Event → Bool
  | .w k _ => k == l
  | .oe k => k == l
  | .h _ => false

/-- Events that do not touch a line leave its latch and its output enable. -/
theorem replay_of_untouched {l : Line} {evs : List Event} (h : ∀ e ∈ evs, touches l e = false) (ls : Lines) :
    Lines.get (replayLatch ls evs) l = Lines.get ls l ∧ Lines.get (replayOutputs ls evs) l = Lines.get ls l := by
  induction evs generalizing ls with
  | nil => exact ⟨rfl, rfl⟩
  | cons e evs ih =>
    obtain ⟨he, hevs⟩ := List.forall_mem_cons.mp h
    rw [replayLatch_cons, replayOutputs_cons, (ih hevs _).1, (ih hevs _).2]
    cases e with
    | w k v | oe k =>
      have hk : l ≠ k := fun e => by simp [touches, e] at he
      simp [latchAfter, outputsAfter, get_set, hk]
    | h ms => exact ⟨rfl, rfl⟩

section
variable {p : Params} (hp : p.dcBinding = .sharedWithData)
include hp

theorem frameEvents_dc_untouched (k : Kind) (b : Byte) : ∀ e ∈ frameEvents p k b, touches .dc e = false := by
  simp [frameEvents, pulseEvents, bitEvents, selectLine, hp, touches]

theorem flatMap_frameEvents_dc_untouched (k : Kind) (bs : List Byte) :
    ∀ e ∈ bs.flatMap (frameEvents p k), touches .dc e = false := by
  intro e he
  obtain ⟨b, -, hb⟩ := List.mem_flatMap.mp he
  exact frameEvents_dc_untouched hp k b e hb

theorem outputEvents_dc_untouched : ∀ e ∈ outputEvents p, touches .dc e = false := by
  simp [outputEvents, hp, touches]

theorem initEvents_dc_untouched : ∀ e ∈ initEvents p, touches .dc e = false := by
  unfold initEvents
  simp only [List.forall_mem_append]
  exact ⟨⟨⟨⟨outputEvents_dc_untouched hp, by decide⟩, flatMap_frameEvents_dc_untouched hp _ _⟩,
    flatMap_frameEvents_dc_untouched hp _ _⟩, flatMap_frameEvents_dc_untouched hp _ _⟩

theorem requestEvents_dc_untouched (bytes : List Byte) (i : Instr) :
    ∀ e ∈ requestEvents p bytes i, touches .dc e = false := by
  cases i with
  | init => exact initEvents_dc_untouched hp
  | displayOn | displayOff | invertDisplay | xmit => exact frameEvents_dc_untouched hp _ _
  | setContrast | display => exact flatMap_frameEvents_dc_untouched hp _ _
  | hardReset => exact (by decide : ∀ e ∈ hardResetEvents, touches .dc e = false)
  | setXy x page =>
    simp only [requestEvents]
    split
    · exact flatMap_frameEvents_dc_untouched hp _ _
    · exact List.forall_mem_nil _
  | _ => exact List.forall_mem_nil _

end

/-- Settles O59: no event of a request touches DC (`requestEvents_dc_untouched`), and the lines move by events alone. -/
theorem sharedSelectLineIsNeverWritten : Obligations.SharedSelectLineIsNeverWritten := by
  intro i s t hp h
  obtain rfl := eq_requestDone_of_exec h
  have untouched := requestEvents_dc_untouched hp (fbBytes s) i
  refine ⟨_, rfl, fun v hv => ?_, fun ho => ?_, (replay_of_untouched untouched s.latch).1,
    (replay_of_untouched untouched s.oe).2⟩
  · exact Bool.noConfusion (untouched _ hv)
  · exact Bool.noConfusion (untouched _ ho)

/-! ### Construction and reset -/

/-- Settles O60: neither a request nor the acceptance writes the binding or the parameters. -/
theorem constructionNeverChanges : Obligations.ConstructionNeverChanges := by
  intro s t
  refine step_keeps (P := fun u => u.binding = s.binding ∧ u.params = s.params) ?_ (fun _ _ hu => hu) ⟨rfl, rfl⟩
  intro u v huv hu
  rwa [huv.binding, huv.params]

/-- Settles O1: each value is read off `State.construct`. -/
theorem resetLeavesTheStatedValues : Obligations.ResetLeavesTheStatedValues := by
  intro p b
  refine ⟨fun a _ => Memory.read_nil a, rfl, fun l => ?_, fun _ => rfl, rfl, rfl, rfl, rfl, rfl, rfl, rfl⟩
  cases l <;> rfl

theorem lowNibbleClear_append_zero (h : BitVec 4) : lowNibbleClear (h ++ 0#4) = true := by
  revert h
  decide

theorem oneBitSet_shiftLeft (k : Fin 8) : oneBitSet (1#8 <<< k.val) = true := by
  revert k
  decide

/-- The free command bytes meet R81 by the way they are built (log 8). -/
theorem cmd_wellFormed : Config.cmd.wellFormed = true := by
  have flag : oneBitSet Config.invertFlag = true := oneBitSet_shiftLeft _
  have normal : Config.displayNormalRaw &&& ~~~Config.invertFlag &&& Config.invertFlag = 0#8 := by
    rw [BitVec.and_assoc, BitVec.and_comm (~~~Config.invertFlag), BitVec.and_not_self]
    exact BitVec.and_zero
  simp [CmdTable.wellFormed, Config.cmd, lowNibbleClear_append_zero, flag, normal]

theorem params_wellFormed : Config.params.wellFormed = true := by
  simp [Params.wellFormed, Config.params, cmd_wellFormed, Config.xhi]

theorem sound_reset : Sound State.reset where
  fb := Memory.wf_nil
  rest := ⟨rfl, rfl, rfl⟩
  phase := by simp [State.reset, State.construct, linesAreOutputs, Lines.low, Shadow.atReset]
  quiet := fun _ => rfl
  rsp := rfl

/-- Settles O2, with `sound_reset` for the invariant and the empty trace for the lines. -/
theorem resetMeetsTheInvariants : Obligations.ResetMeetsTheInvariants :=
  ⟨inv_iff.mpr ⟨sound_reset, rfl⟩, ⟨rfl, rfl⟩, params_wellFormed⟩

/-! ### The port -/

/-- Settles O10: the fields the sequencer has loaded decode as the word does. -/
theorem stepRunsTheDecodedRequest : Obligations.StepRunsTheDecodedRequest := by
  intro s w rest i hb hp hd
  rw [step_of_presented hb hp, runRequest_of_decoded ((requestInProgress_accept w rest s).trans hd)]
  rfl

/-- Settles O12: with `busy` 1 the step runs the request in progress, which leaves the port alone. -/
theorem requestsAreTakenOnlyWhenReady : Obligations.RequestsAreTakenOnlyWhenReady := by
  refine ⟨fun s => step_of_idle, fun s t hb h => ?_⟩
  rw [step_of_busy hb] at h
  obtain ⟨i, rfl⟩ | rfl := runRequest_cases h <;> exact ⟨rfl, rfl⟩

end Sys2Proof.Proofs

/-!
PROOFS. The statements of 20_memory.md. A request reads and writes the framebuffer through `requestFb`, `fbBytes` and
`requestResponse` alone (`exec_eq`), and each of the three stays inside the 864 bytes (R45).
-/
namespace Sys2Proof.Proofs

open Sys2Proof Sys2Proof.Machine

/-! ### Inside the 864 bytes -/

/-- Another framebuffer that agrees in the 864 bytes shows in the framebuffer left, and in nothing else. -/
theorem requestDone_setFb (i : Instr) (s : State) {m : Memory}
    (h : ∀ a, a < 864 → Memory.read m a = Memory.read s.fb a) :
    requestDone i { s with fb := m } = { requestDone i s with fb := requestFb i { s with fb := m } } := by
  have hbytes : fbBytes { s with fb := m } = fbBytes s := fbBytes_congr h
  have hrsp : requestResponse i { s with fb := m } = requestResponse i s := requestResponse_congr i h
  simp only [requestDone, hbytes, hrsp]
  rfl

/-- Settles O57: outside the 864 bytes nothing is written (`read_requestFb_outside`), and framebuffers that agree inside
are left agreeing inside (`requestFb_related`), with everything else the same (`requestDone_setFb`). -/
theorem noAccessOutsideTheFramebuffer : Obligations.NoAccessOutsideTheFramebuffer := by
  constructor
  · intro i s t a ha h
    obtain rfl := eq_requestDone_of_exec h
    exact read_requestFb_outside i s ha
  · intro i s t m hm h
    obtain rfl := eq_requestDone_of_exec h
    refine ⟨requestFb i { s with fb := m }, ?_, requestFb_related fbRelation_agree i hm⟩
    rw [exec_eq, requestDone_setFb i s hm]

/-! ### Requests that do not write -/

/-- The requests that write the framebuffer are INIT and those of the framebuffer and drawing families that do not
respond (R40, R52). -/
theorem requestFb_of_not_writing {i : Instr} (h : framebufferRequest i = false ∨ respondingRequest i = true)
    (hi : i ≠ .init) (s : State) : requestFb i s = s.fb := by
  cases i with
  | init => exact absurd rfl hi
  | clearDisplay | fillScreen | drawPixel | fbWrite | drawRect | fillRect | drawSquare | fillSquare =>
    simp [framebufferRequest, respondingRequest] at h
  | _ => rfl

/-- Settles O58: the framebuffer left is that of `requestFb`. -/
theorem onlyWritingRequestsChangeTheFramebuffer : Obligations.OnlyWritingRequestsChangeTheFramebuffer := by
  intro i s t hw hi h
  obtain rfl := eq_requestDone_of_exec h
  exact requestFb_of_not_writing hw hi s

end Sys2Proof.Proofs

/-!
PROOFS. The statements of 30_encoding.md. A word is decoded by its fields alone (`decode_packWord`). The decoder and the
encoder invert one another on the bits an operation uses (`decode_encode`, `encode_of_decodeFields`), so the other bits
do not matter. A frame gives one sample per pulse at either clock edge (`clockSamples_frameEvents`).
-/
namespace Sys2Proof.Proofs

open Sys2Proof Sys2Proof.Machine

/-! ### Decoding a packed word -/

theorem decode_packWord (op : Byte) (a b c d : Word16) (e : Byte) :
    decode (packWord op a b c d e) = decodeFields op a b c d e := by
  simp only [decode, fieldOp_packWord, fieldA_packWord, fieldB_packWord, fieldC_packWord, fieldD_packWord,
    fieldE_packWord]

/-- The decoder undoes the encoder, operand by operand (R71). -/
theorem decode_encode {i : Instr} (h : i.wellFormed = true) : decode (encode i) = .ok i := by
  cases i with
  | init | displayOn | displayOff | setContrast | invertDisplay | clearDisplay | display | getBufferSize | fillScreen
  | hardReset =>
    rw [encode, decode_packWord]
    rfl
  | fbRead index | fbWrite index byte =>
    rw [encode, decode_packWord]
    simp [decodeFields, opcodeOf, zext16_fieldOfNat h]
  | xmit kind byte =>
    rw [encode, decode_packWord]
    simp [decodeFields, opcodeOf, kindOfField_fieldOfKind]
  | getPixel | drawPixel | drawRect | fillRect | drawSquare | fillSquare | setXy =>
    rw [encode, decode_packWord]
    simp only [Instr.wellFormed, Bool.and_eq_true] at h
    simp [decodeFields, opcodeOf, sext16_fieldOfInt, h]

/-- Settles O5: `decode_encode`. -/
theorem decodeInvertsEncode : Obligations.DecodeInvertsEncode := fun _ => decode_encode

/-! ### The reserved opcodes -/

/-- The opcodes R74 reserves. -/
def ReservedOpcode (op : Byte) : Prop :=
  op.toNat = 0x00 ∨ (0x12 ≤ op.toNat ∧ op.toNat ≤ 0x1F) ∨ 0x23 ≤ op.toNat

/-- An opcode decodes to no request exactly when it is reserved, and the rejection names it (R72, R74). -/
theorem decodeFields_eq_error_iff {op : Byte} {a b c d : Word16} {e : Byte} {err : DecodeError} :
    decodeFields op a b c d e = .error err ↔ ReservedOpcode op ∧ err = .reservedOpcode op := by
  unfold decodeFields
  split
  case h_21 =>
    have reserved : ReservedOpcode op := by
      simp only [imp_false] at *
      unfold ReservedOpcode
      omega
    rw [Except.error.injEq, eq_comm, and_iff_right reserved]
  all_goals
    next hop => simp [ReservedOpcode, hop]

theorem decode_eq_error_iff {w : ReqWord} {err : DecodeError} :
    decode w = .error err ↔ ReservedOpcode (fieldOp w) ∧ err = .reservedOpcode (fieldOp w) :=
  decodeFields_eq_error_iff

/-- Settles O8: `decode_eq_error_iff`, for the error that names the word's own opcode. -/
theorem reservedOpcodesAreExactlyTheUnassigned : Obligations.ReservedOpcodesAreExactlyTheUnassigned := fun _ =>
  decode_eq_error_iff.trans (and_iff_left rfl)

theorem runRequest_of_error {s : State} {err : DecodeError} (h : requestInProgress s = .error err) :
    runRequest s = .next (retire s) := by
  unfold runRequest
  rw [h]

/-- Settles O11: the request accepted is a reserved one, and ends as it began. -/
theorem reservedRequestIsASilentNoOp : Obligations.ReservedRequestIsASilentNoOp := by
  intro s w rest hb hp hr
  have hd : decode w = .error (.reservedOpcode (fieldOp w)) := decode_eq_error_iff.mpr ⟨hr, rfl⟩
  refine ⟨retire (accept w rest s), ?_, ⟨⟨rfl, rfl, rfl, rfl⟩, rfl, rfl, rfl, rfl, rfl, rfl⟩, rfl⟩
  rw [step_of_presented hb hp, runRequest_of_error ((requestInProgress_accept w rest s).trans hd)]

/-! ### The used bits -/

theorem opcodeOf_of_decodeFields {op : Byte} {a b c d : Word16} {e : Byte} {i : Instr}
    (h : decodeFields op a b c d e = .ok i) : opcodeOf i = op := by
  unfold decodeFields at h
  split at h
  case h_21 => exact absurd h (by simp)
  all_goals
    next hop =>
      cases h
      exact BitVec.eq_of_toNat_eq hop.symm

theorem and_FF (x : Byte) : x &&& 0xFF#8 = x := BitVec.and_allOnes

theorem and_FFFF (x : Word16) : x &&& 0xFFFF#16 = x := BitVec.and_allOnes

/-- Bit 0 alone of field `a` carries the kind (R71, R73). -/
theorem fieldOfKind_kindOfField (a : Word16) : fieldOfKind (kindOfField a) = a &&& 1#16 := by
  rw [BitVec.and_one_eq_setWidth_ofBool_getLsbD, kindOfField]
  cases a.getLsbD 0 <;> rfl

/-- The bits the operation of a request uses, field by field (R72, R73). -/
def usedFields : Instr → ReqWord
  | .init | .displayOn | .displayOff | .clearDisplay | .display | .getBufferSize | .hardReset => packWord 0xFF 0 0 0 0 0
  | .setContrast _ | .invertDisplay _ | .fillScreen _ => packWord 0xFF 0 0 0 0 0xFF
  | .fbRead _ => packWord 0xFF 0xFFFF 0 0 0 0
  | .fbWrite _ _ => packWord 0xFF 0xFFFF 0 0 0 0xFF
  | .getPixel _ _ | .setXy _ _ => packWord 0xFF 0xFFFF 0xFFFF 0 0 0
  | .drawPixel _ _ _ => packWord 0xFF 0xFFFF 0xFFFF 0 0 0xFF
  | .drawRect _ _ _ _ _ | .fillRect _ _ _ _ _ => packWord 0xFF 0xFFFF 0xFFFF 0xFFFF 0xFFFF 0xFF
  | .drawSquare _ _ _ _ | .fillSquare _ _ _ _ => packWord 0xFF 0xFFFF 0xFFFF 0xFFFF 0 0xFF
  | .xmit _ _ => packWord 0xFF 1 0 0 0 0xFF

theorem usedBits_opcodeOf (i : Instr) : usedBits (opcodeOf i) = usedFields i := by
  cases i <;> rfl

/-- The encoder undoes the decoder but for the bits the operation does not use (R73). -/
theorem encode_of_decodeFields {op : Byte} {a b c d : Word16} {e : Byte} {i : Instr}
    (h : decodeFields op a b c d e = .ok i) :
    i.wellFormed = true ∧ encode i = packWord op a b c d e &&& usedBits op := by
  obtain rfl := opcodeOf_of_decodeFields h
  rw [usedBits_opcodeOf]
  cases i <;> cases h
  case init | displayOn | displayOff | setContrast | invertDisplay | clearDisplay | display | getBufferSize | fillScreen
      | hardReset =>
    simp [Instr.wellFormed, encode, usedFields, packWord_and, and_FF]
  case fbRead | fbWrite =>
    simp [Instr.wellFormed, encode, usedFields, packWord_and, and_FF, and_FFFF, inU16_zext16, fieldOfNat_zext16]
  case getPixel | drawPixel | drawRect | fillRect | drawSquare | fillSquare | setXy =>
    simp [Instr.wellFormed, encode, usedFields, packWord_and, and_FF, and_FFFF, inS16_sext16, fieldOfInt_sext16]
  case xmit =>
    simp [Instr.wellFormed, encode, usedFields, packWord_and, and_FF, fieldOfKind_kindOfField]

/-- Settles O6: a word is its fields, so `encode_of_decodeFields` speaks of it. -/
theorem encodeInvertsDecodeOnUsedBits : Obligations.EncodeInvertsDecodeOnUsedBits := by
  intro w i h
  simpa only [packWord_fields] using encode_of_decodeFields h

/-- Every operation uses the opcode's own bits. -/
theorem fieldOp_usedBits (op : Byte) : fieldOp (usedBits op) = 0xFF := by
  unfold usedBits
  repeat' split
  all_goals rfl

theorem fieldOp_and_usedBits (w : ReqWord) (op : Byte) : fieldOp (w &&& usedBits op) = fieldOp w := by
  calc fieldOp (w &&& usedBits op)
      = fieldOp w &&& fieldOp (usedBits op) := BitVec.extractLsb'_and
    _ = fieldOp w := by rw [fieldOp_usedBits]; exact and_FF _

/-- Clearing the bits a word's operation does not use leaves what it decodes to: the cleared word is the word of the
request decoded, or has the same reserved opcode. -/
theorem decode_and_usedBits (w : ReqWord) : decode (w &&& usedBits (fieldOp w)) = decode w := by
  cases h : decode w with
  | ok i =>
    obtain ⟨hwf, henc⟩ := encodeInvertsDecodeOnUsedBits w i h
    rw [← henc, decode_encode hwf]
  | error err =>
    rw [decode_eq_error_iff, fieldOp_and_usedBits]
    exact decode_eq_error_iff.mp h

/-- Settles O7: the two words have one opcode, and are the same word once the bits it does not use are cleared. -/
theorem unusedBitsDoNotMatter : Obligations.UnusedBitsDoNotMatter := by
  intro v w h
  have hop : fieldOp v = fieldOp w := by
    rw [← fieldOp_and_usedBits v (fieldOp v), h, fieldOp_and_usedBits]
  rw [← decode_and_usedBits v, h, hop, decode_and_usedBits]

/-- Settles O9, by running the decoder on each word. -/
theorem writtenOutWordsDecode : Obligations.WrittenOutWordsDecode := by
  unfold Obligations.WrittenOutWordsDecode
  decide

/-! ### The display-mode commands -/

theorem ne_zero_of_oneBitSet {b : Byte} (h : oneBitSet b = true) : b ≠ 0 := by
  rintro rfl
  exact absurd h (by decide)

theorem invertByte_zero (p : Params) : invertByte p 0 = p.cmd.displayNormal := BitVec.or_zero

theorem invertByte_of_ne_zero (p : Params) {state : Byte} (h : state ≠ 0) :
    invertByte p state = p.cmd.displayNormal ||| p.cmd.invertFlag := by
  rw [invertByte, truthy, if_pos (bne_iff_ne.mpr h)]

/-- The constraints R81 puts on the two bytes INVERT_DISPLAY is made of. -/
theorem invertFlag_of_wellFormed {p : Params} (h : p.wellFormed = true) :
    oneBitSet p.cmd.invertFlag = true ∧ p.cmd.displayNormal &&& p.cmd.invertFlag = 0 := by
  simp only [Params.wellFormed, CmdTable.wellFormed, Bool.and_eq_true, beq_iff_eq] at h
  obtain ⟨⟨⟨-, hflag⟩, hclear⟩, -⟩ := h
  exact ⟨hflag, hclear⟩

/-- Settles O27: were the two bytes the same, the flag's bit, which R81 keeps out of DISPLAY_NORMAL, would be set in
it. -/
theorem invertCommandsDiffer : Obligations.InvertCommandsDiffer := by
  intro p state hp hs heq
  obtain ⟨hflag, hclear⟩ := invertFlag_of_wellFormed hp
  rw [invertByte_zero, invertByte_of_ne_zero p hs] at heq
  refine ne_zero_of_oneBitSet hflag ?_
  calc p.cmd.invertFlag
      = (p.cmd.displayNormal ||| p.cmd.invertFlag) &&& p.cmd.invertFlag := by
        simp [BitVec.and_or_distrib_right, hclear]
    _ = 0 := by rw [heq, hclear]

/-! ### Sampling a frame -/

/-- The samples the low `n` bits of a byte give while the select line holds `dc`, highest bit first. -/
def bitSamples (dc : Bool) (b : Byte) : Nat → List (Bool × Bool)
  | 0 => []
  | n + 1 => (dc, b.getLsbD n) :: bitSamples dc b n

theorem length_bitSamples (dc : Bool) (b : Byte) (n : Nat) : (bitSamples dc b n).length = n := by
  induction n with
  | zero => rfl
  | succ n ih => simp [bitSamples, ih]

theorem all_bitSamples (dc : Bool) (b : Byte) (n : Nat) : (bitSamples dc b n).all (fun t => t.1 == dc) = true := by
  induction n with
  | zero => rfl
  | succ n ih => simpa [bitSamples] using ih

/-- Samples read as binary digits after `acc` (R79) append the low `n` bits to it. -/
theorem foldl_bitSamples (dc : Bool) (b : Byte) (n acc : Nat) :
    (bitSamples dc b n).foldl (fun n s => 2 * n + s.2.toNat) acc = acc * 2 ^ n + (b.setWidth n).toNat := by
  induction n generalizing acc with
  | zero => simp [bitSamples, BitVec.of_length_zero]
  | succ n ih =>
    rw [bitSamples, List.foldl_cons, ih, BitVec.setWidth_succ, BitVec.toNat_cons', Nat.shiftLeft_eq]
    ring

/-- Eight samples put together are the byte (R79). -/
theorem byteOfSamples_bitSamples (dc : Bool) (b : Byte) : byteOfSamples (bitSamples dc b 8) = b := by
  rw [byteOfSamples, foldl_bitSamples, Nat.zero_mul, Nat.zero_add, BitVec.setWidth_eq, BitVec.ofNat_toNat,
    BitVec.setWidth_eq]

theorem clockSamples_append (edge : Bool) (ls : Lines) (e f : List Event) :
    clockSamples edge ls (e ++ f) = clockSamples edge ls e ++ clockSamples edge (replayLatch ls e) f := by
  induction e generalizing ls with
  | nil => rfl
  | cons x e ih =>
    simp only [List.cons_append, clockSamples, replayLatch_cons, ih]
    split <;> rfl

/-- A pulse goes through either edge once, and moves neither the select line nor the data line (R102). -/
theorem clockSamples_pulseEvents (edge : Bool) (p : Params) (ls : Lines) :
    clockSamples edge ls (pulseEvents p) = [(ls.dc, ls.data)] := by
  cases edge <;> cases h : p.clkIdle <;> simp [pulseEvents, clockSamples, isClockEdge, latchAfter, Lines.set, h]

theorem replayLatch_pulseEvents (p : Params) (ls : Lines) :
    replayLatch ls (pulseEvents p) = { ls with clk := p.clkIdle } := rfl

theorem clockSamples_write {edge : Bool} {l : Line} (h : l ≠ .clk) (v : Bool) (ls : Lines) (es : List Event) :
    clockSamples edge ls (.w l v :: es) = clockSamples edge (Lines.set ls l v) es := by
  rw [clockSamples, if_neg (by simp [isClockEdge, h])]
  rfl

theorem clockSamples_bitsEvents (edge : Bool) (p : Params) (b : Byte) (n : Nat) (ls : Lines) :
    clockSamples edge ls (bitsEvents p b n) = bitSamples ls.dc b n := by
  induction n generalizing ls with
  | zero => rfl
  | succ n ih =>
    rw [bitsEvents, clockSamples_append, ih, bitEvents, clockSamples_write (by decide), clockSamples_pulseEvents]
    rfl

theorem frameEvents_eq (p : Params) (k : Kind) (b : Byte) :
    frameEvents p k b = .w .cs false :: .w (selectLine p) (dcLevel p k) ::
      (pulseEvents p ++ (bitsEvents p b 8 ++ [.w .cs true])) := by
  rw [dcLevel_eq]
  rfl

theorem selectLine_ne_clk (p : Params) : selectLine p ≠ .clk := by
  unfold selectLine
  split <;> decide

/-- The lines as a frame of a kind leads in: chip-select asserted and the select line at the kind (R78). -/
def linesLeadingIn (p : Params) (k : Kind) (ls : Lines) : Lines :=
  Lines.set (Lines.set ls .cs false) (selectLine p) (dcLevel p k)

/-- At either clock edge a frame gives the leading sample and one for each bit of the byte (R78, R79). -/
theorem clockSamples_frameEvents (edge : Bool) (p : Params) (k : Kind) (b : Byte) (ls : Lines) :
    clockSamples edge ls (frameEvents p k b) =
      ((linesLeadingIn p k ls).dc, (linesLeadingIn p k ls).data) :: bitSamples (linesLeadingIn p k ls).dc b 8 := by
  rw [frameEvents_eq, clockSamples_write (by decide), clockSamples_write (selectLine_ne_clk p), clockSamples_append,
    clockSamples_append, clockSamples_pulseEvents, clockSamples_bitsEvents, clockSamples_write (by decide)]
  simp [replayLatch_pulseEvents, linesLeadingIn, clockSamples]

/-! ### Decoding a frame -/

theorem kindOfLevel_dcLevel (p : Params) (k : Kind) : kindOfLevel p (dcLevel p k) = k := by
  cases k <;> simp [kindOfLevel, dcLevel]

theorem decodeSamples_dedicated {p : Params} (hp : p.dcBinding = .dedicated) (lead : Bool × Bool) (dc : Bool)
    (b : Byte) :
    decodeSamples p (lead :: bitSamples dc b 8) = some (kindOfLevel p dc, b, lead.2) := by
  rw [bitSamples, decodeSamples, if_pos (length_bitSamples dc b 7), hp]
  simp only [all_bitSamples, if_true]
  rw [← bitSamples, byteOfSamples_bitSamples]

theorem decodeSamples_shared {p : Params} (hp : p.dcBinding = .sharedWithData) (lead : Bool × Bool) (dc : Bool)
    (b : Byte) :
    decodeSamples p (lead :: bitSamples dc b 8) = some (kindOfLevel p lead.2, b, lead.2) := by
  rw [bitSamples, decodeSamples, if_pos (length_bitSamples dc b 7), hp]
  simp only
  rw [← bitSamples, byteOfSamples_bitSamples]

/-- Settles O16: the samples do not depend on the edge (`clockSamples_frameEvents`), and the select line the frame leads
in with carries the kind. -/
theorem frameDecodesToTheByteSent : Obligations.FrameDecodesToTheByteSent := by
  intro p k b ls
  refine ⟨?_, ?_, fun hp => ?_, fun hp => ?_⟩
  · rw [clockSamples_frameEvents, List.length_cons, length_bitSamples]
  · rw [clockSamples_frameEvents, clockSamples_frameEvents]
  · have lead : linesLeadingIn p k ls = { ls with cs := false, dc := dcLevel p k } := by
      simp [linesLeadingIn, selectLine, hp, Lines.set]
    rw [frameDecode, clockSamples_frameEvents, decodeSamples_dedicated hp, lead, kindOfLevel_dcLevel]
  · have lead : linesLeadingIn p k ls = { ls with cs := false, data := dcLevel p k } := by
      simp [linesLeadingIn, selectLine, hp, Lines.set]
    rw [frameDecode, clockSamples_frameEvents, decodeSamples_shared hp, lead, kindOfLevel_dcLevel]

end Sys2Proof.Proofs

/-!
PROOFS. The statements of 40_line_driver.md. A transmitted frame is `transmit_eq`, the levels it leaves are
`replayLatch_frameEvents`; XMIT and HARD_RESET are two of the requests that drive the lines and change nothing else but
the shadow (`drivesOnly_requestDone`).
-/
namespace Sys2Proof.Proofs

open Sys2Proof Sys2Proof.Machine

/-! ### One frame -/

/-- Settles O14: the events are those of `emits_transmit`, and `transmit_eq` leaves each other field as it was. -/
theorem transmitShiftsOneTaggedByte : Obligations.TransmitShiftsOneTaggedByte := fun k b s =>
  ⟨emits_transmit k b s, transmit_fb k b s, transmit_rsp k b s, transmit_shadow k b s, transmit_busy k b s,
    transmit_params k b s, transmit_binding k b s⟩

/-- Whether an event is a write to the data line. -/
def isDataWrite (e : Event) : Bool := e == .w .data true || e == .w .data false

theorem isDataWrite_w (l : Line) (v : Bool) : isDataWrite (.w l v) = (l == .data) := by
  cases l <;> cases v <;> rfl

/-- A pulse leaves the data line alone (R102). -/
theorem countP_isDataWrite_pulseEvents (p : Params) : (pulseEvents p).countP isDataWrite = 0 := by
  simp [pulseEvents, isDataWrite_w]

/-- Each bit is put on the data line once (R104). -/
theorem countP_isDataWrite_bitsEvents (p : Params) (b : Byte) (n : Nat) :
    (bitsEvents p b n).countP isDataWrite = n := by
  induction n with
  | zero => rfl
  | succ n ih =>
    rw [bitsEvents, List.countP_append, ih, bitEvents, List.countP_cons, countP_isDataWrite_pulseEvents,
      isDataWrite_w]
    exact Nat.add_comm 1 n

/-- The data line is written for each of the eight bits, and for the kind when it is the select line too (R105). -/
theorem countP_isDataWrite_frameEvents (p : Params) (k : Kind) (b : Byte) :
    (frameEvents p k b).countP isDataWrite =
      (match p.dcBinding with | .dedicated => 8 | .sharedWithData => 9) := by
  rw [frameEvents_eq]
  cases hp : p.dcBinding <;>
    simp [isDataWrite_w, countP_isDataWrite_pulseEvents, countP_isDataWrite_bitsEvents, selectLine, hp]

/-- Settles O15: the counts are those of `length_frameEvents` and `countP_isDataWrite_frameEvents`, the levels those of
`replayLatch_frameEvents`. -/
theorem frameHasTwentyNineWrites : Obligations.FrameHasTwentyNineWrites := by
  intro p k b ls
  have writes : (frameEvents p k b).countP isWrite = 29 := by
    rw [List.countP_eq_length.mpr (List.all_eq_true.mp (all_isWrite_frameEvents p k b)), length_frameEvents]
  rw [replayLatch_frameEvents]
  refine ⟨length_frameEvents p k b, writes, countP_isDataWrite_frameEvents p k b, rfl, rfl, rfl, fun hp => ?_, rfl⟩
  rw [hp, dcLevel_eq]

/-! ### Requests that drive the lines -/

/-- A request of neither the framebuffer nor the drawing family has no response. -/
theorem requestResponse_of_not_framebuffer {i : Instr} (h : framebufferRequest i = false) (s : State) :
    requestResponse i s = none := by
  cases i with
  | getPixel | getBufferSize | fbRead => exact Bool.noConfusion h
  | _ => rfl

/-- A request of neither family, INIT aside, changes the lines and the shadow alone (R52, R55). -/
theorem drivesOnly_requestDone {i : Instr} (h : framebufferRequest i = false) (hi : i ≠ .init) (s : State) :
    DrivesOnly s (requestDone i s) (requestEvents s.params (fbBytes s) i) := by
  have noResponse := requestResponse_of_not_framebuffer h s
  refine ⟨⟨rfl, rfl, rfl, rfl⟩, requestFb_of_not_writing (.inl h) hi s, ?_, ?_, emits_requestDone i s⟩
  · rw [requestDone_rsp, noResponse, Option.getD_none]
  · rw [requestDone_responses, noResponse, Option.toList_none, List.append_nil]

/-- While the lines are outputs, the shadow a request other than INIT leaves is that of `requestShadow` (R128). -/
theorem shadowBecomes_requestDone {i : Instr} (hi : i ≠ .init) (s : State) :
    ShadowBecomes s (requestDone i s) (requestShadow i s.shadow) := shadowAfter_of_outputs hi

/-- A word is decoded by its opcode (R72). -/
theorem decode_of_fieldOp {w : ReqWord} {op : Byte} (h : fieldOp w = op) :
    decode w = decodeFields op (fieldA w) (fieldB w) (fieldC w) (fieldD w) (fieldE w) := h ▸ rfl

/-- Settles O17: XMIT drives the events of one frame, and its shadow update is one of `shadowAfterXmit` for each kind. -/
theorem xmitSendsOneFrame : Obligations.XmitSendsOneFrame := by
  intro k b s
  have notInit : Instr.xmit k b ≠ .init := Instr.noConfusion
  refine ⟨_, exec_eq _ s, drivesOnly_requestDone rfl notInit s, ?_, ?_⟩
  · rintro rfl
    exact shadowBecomes_requestDone notInit s
  · rintro rfl
    exact shadowBecomes_requestDone notInit s

/-- Settles O18: the opcode decodes to HARD_RESET, which drives `hardResetEvents`; they move the reset latch low and back
high. -/
theorem hardResetPulsesTheResetLine : Obligations.HardResetPulsesTheResetLine := by
  have notInit : Instr.hardReset ≠ .init := Instr.noConfusion
  exact ⟨fun w => decode_of_fieldOp, fun s =>
    ⟨_, exec_eq _ s, drivesOnly_requestDone rfl notInit s, rfl, shadowBecomes_requestDone notInit s⟩⟩

end Sys2Proof.Proofs

/-!
PROOFS. The statements of 41_controller_protocol.md. Every request of the family but INIT drives the lines and changes
nothing else but the shadow (`drivesOnly_requestDone`), and its rows of R128 are facts about the phase alone. INIT is the
output events, a hardware reset and 875 frames (`initEvents_eq`), so what it sends and how often is a fact about lists of
frames (`sentFrames_framesEvents`, `countP_framesEvents`).
-/
namespace Sys2Proof.Proofs

open Sys2Proof Sys2Proof.Machine

/-! ### INIT -/

/-- Settles O19: INIT is `exec_eq`; the fill leaves the bytes 0 (`Memory.read_fill`), and the output events make every
line an output (`linesAreOutputs_requestDone`). -/
theorem initRunsTheBringUpSequence : Obligations.InitRunsTheBringUpSequence := by
  refine ⟨fun w => decode_of_fieldOp, fun s => ⟨_, exec_eq .init s, ⟨rfl, rfl, rfl, rfl⟩, emits_requestDone .init s,
    fun a ha => ?_, fun a ha => read_requestFb_outside .init s ha, rfl, ?_, ?_, shadowAfter_init s⟩⟩
  · exact (Memory.read_fill s.fb 0 a).trans (if_pos ha)
  · exact List.append_nil _
  · rw [linesAreOutputs_requestDone, beq_self_eq_true, Bool.or_true]

/-- The events of frames sent one after the other. -/
def framesEvents (p : Params) (fs : List (Kind × Byte)) : List Event := fs.flatMap fun f => frameEvents p f.1 f.2

theorem framesEvents_append (p : Params) (fs gs : List (Kind × Byte)) :
    framesEvents p (fs ++ gs) = framesEvents p fs ++ framesEvents p gs := List.flatMap_append

theorem framesEvents_map (p : Params) (k : Kind) (bs : List Byte) :
    framesEvents p (bs.map (k, ·)) = bs.flatMap (frameEvents p k) := by
  rw [framesEvents, List.flatMap_map]

/-- The frames of INIT: steps 3 to 10, the flush of a cleared framebuffer, steps 12 and 13 (R120, R127). -/
def initFrames (p : Params) : List (Kind × Byte) :=
  (configurationBytes p).map (Kind.command, ·) ++ (List.replicate 864 0).map (Kind.data, ·)
    ++ [p.cmd.displayOn, p.cmd.displayAllOn].map (Kind.command, ·)

theorem length_initFrames (p : Params) : (initFrames p).length = 875 := by
  rw [initFrames, List.length_append, List.length_append, List.length_map, List.length_map, List.length_replicate]
  rfl

theorem initEvents_eq (p : Params) :
    initEvents p = (outputEvents p ++ hardResetEvents) ++ framesEvents p (initFrames p) := by
  rw [initFrames, framesEvents_append, framesEvents_append, framesEvents_map, framesEvents_map, framesEvents_map,
    ← List.append_assoc, ← List.append_assoc]
  rfl

/-! ### Counting the events of INIT -/

/-- A frame never touches the reset line (R104). -/
theorem frameEvents_rst_untouched (p : Params) (k : Kind) (b : Byte) :
    ∀ e ∈ frameEvents p k b, touches .rst e = false := by
  cases hp : p.dcBinding <;> simp [frameEvents, pulseEvents, bitEvents, selectLine, hp, touches]

/-- What is no write to a line other than reset does not occur in a frame. -/
theorem countP_frameEvents_eq_zero {q : Event → Bool} (hq : ∀ l v, l ≠ .rst → q (.w l v) = false) (p : Params)
    (k : Kind) (b : Byte) : (frameEvents p k b).countP q = 0 := by
  rw [List.countP_eq_zero]
  intro e he
  have write : isWrite e = true := List.all_eq_true.mp (all_isWrite_frameEvents p k b) e he
  have untouched := frameEvents_rst_untouched p k b e he
  cases e with
  | w l v => simp [hq l v (beq_eq_false_iff_ne.mp untouched)]
  | oe l | h ms => exact Bool.noConfusion write

theorem countP_framesEvents {q : Event → Bool} {p : Params} {n : Nat} (hq : ∀ k b, (frameEvents p k b).countP q = n)
    (fs : List (Kind × Byte)) : (framesEvents p fs).countP q = fs.length * n := by
  induction fs with
  | nil => exact (Nat.zero_mul n).symm
  | cons f fs ih =>
    rw [framesEvents, List.flatMap_cons, List.countP_append, hq, ← framesEvents, ih, List.length_cons, Nat.succ_mul,
      Nat.add_comm]

/-- Of whatever each frame has `n`, INIT has `n` for each of its 875 frames, beside its first steps. -/
theorem countP_initEvents {q : Event → Bool} {p : Params} {n : Nat} (hq : ∀ k b, (frameEvents p k b).countP q = n) :
    (initEvents p).countP q = (outputEvents p ++ hardResetEvents).countP q + 875 * n := by
  rw [initEvents_eq, List.countP_append, countP_framesEvents hq, length_initFrames]

/-- What no frame has is in INIT as often as in its first steps. -/
theorem countP_initEvents_of_not_framed {q : Event → Bool} (hq : ∀ l v, l ≠ .rst → q (.w l v) = false) (p : Params) :
    (initEvents p).countP q = (outputEvents p ++ hardResetEvents).countP q :=
  countP_initEvents (countP_frameEvents_eq_zero hq p)

theorem countP_isWrite_frameEvents (p : Params) (k : Kind) (b : Byte) : (frameEvents p k b).countP isWrite = 29 := by
  obtain ⟨-, writes, -⟩ := frameHasTwentyNineWrites p k b p.lineResetLevel
  exact writes

/-- Settles O20: 875 frames of 29 writes and the two writes of the hardware reset; the holds, the writes of the reset line
and the output events are those of the first steps, which the binding of the select line decides. -/
theorem initEventCounts : Obligations.InitEventCounts := by
  intro s
  have otherWrite : ∀ v l u, l ≠ Line.rst → (Event.w l u == .w .rst v) = false := fun v l u hl => by simp [hl]
  refine ⟨_, initEvents s.params, exec_eq .init s, rfl, ?_⟩
  rw [countP_initEvents (countP_isWrite_frameEvents s.params),
    countP_initEvents_of_not_framed (q := isHold) fun _ _ _ => rfl,
    countP_initEvents_of_not_framed (q := (· == .h 10)) fun _ _ _ => rfl,
    countP_initEvents_of_not_framed (otherWrite false), countP_initEvents_of_not_framed (otherWrite true),
    countP_initEvents_of_not_framed (q := isOutput) fun _ _ _ => rfl, outputEvents]
  cases s.params.dcBinding <;> decide

/-! ### The frames of a trace -/

/-- Events that do not assert chip-select open no frame (R79). -/
theorem splitFrames_outside {evs : List Event} (h : .w .cs false ∉ evs) (rest : List Event) :
    splitFrames none (evs ++ rest) = splitFrames none rest := by
  induction evs with
  | nil => rfl
  | cons e evs ih =>
    have other : e ≠ .w .cs false := (List.ne_of_not_mem_cons h).symm
    rw [List.cons_append, splitFrames, if_neg other, ih (List.not_mem_of_not_mem_cons h)]

/-- Events that do not release chip-select go to the open frame, and its release closes the frame (R79). -/
theorem splitFrames_inside {evs : List Event} (h : .w .cs true ∉ evs) (start rest : List Event) :
    splitFrames (some start) (evs ++ .w .cs true :: rest) = (start ++ evs ++ [.w .cs true]) :: splitFrames none rest := by
  induction evs generalizing start with
  | nil => simp [splitFrames]
  | cons e evs ih =>
    have other : e ≠ .w .cs true := (List.ne_of_not_mem_cons h).symm
    rw [List.cons_append, splitFrames, if_neg other, ih (List.not_mem_of_not_mem_cons h),
      List.append_assoc start [e], List.singleton_append]

/-- What a frame holds between chip-select low and chip-select high. -/
def frameBody (p : Params) (k : Kind) (b : Byte) : List Event :=
  .w (selectLine p) (dcLevel p k) :: (pulseEvents p ++ bitsEvents p b 8)

theorem frameEvents_eq_frameBody (p : Params) (k : Kind) (b : Byte) :
    frameEvents p k b = .w .cs false :: (frameBody p k b ++ [.w .cs true]) := by
  rw [frameEvents_eq, frameBody, List.cons_append, List.append_assoc]

theorem cs_not_mem_frameBody (p : Params) (k : Kind) (b : Byte) (v : Bool) : .w .cs v ∉ frameBody p k b := by
  cases hp : p.dcBinding <;> simp [frameBody, pulseEvents, bitsEvents, bitEvents, selectLine, hp]

theorem splitFrames_frameEvents (p : Params) (k : Kind) (b : Byte) (rest : List Event) :
    splitFrames none (frameEvents p k b ++ rest) = frameEvents p k b :: splitFrames none rest := by
  rw [frameEvents_eq_frameBody, List.cons_append, List.append_assoc, splitFrames, if_pos rfl, List.singleton_append,
    splitFrames_inside (cs_not_mem_frameBody p k b true)]
  rfl

theorem splitFrames_framesEvents (p : Params) (fs : List (Kind × Byte)) :
    splitFrames none (framesEvents p fs) = fs.map fun f => frameEvents p f.1 f.2 := by
  induction fs with
  | nil => rfl
  | cons f fs ih => rw [framesEvents, List.flatMap_cons, splitFrames_frameEvents, ← framesEvents, ih, List.map_cons]

/-! ### INIT on the wire -/

/-- Whatever the binding, a frame decodes to its kind and its byte (R79). -/
theorem frameDecode_frameEvents (p : Params) (k : Kind) (b : Byte) (ls : Lines) :
    (frameDecode p ls (frameEvents p k b)).map (fun f => (f.1, f.2.1)) = some (k, b) := by
  obtain ⟨-, -, dedicated, shared⟩ := frameDecodesToTheByteSent p k b ls
  cases hp : p.dcBinding with
  | dedicated => rw [dedicated hp, Option.map_some]
  | sharedWithData => rw [shared hp, Option.map_some]

/-- Frames sent one after the other are read back in order, from any levels. -/
theorem sentFrames_framesEvents (p : Params) (fs : List (Kind × Byte)) (ls : Lines) :
    (sentFrames p ls (framesEvents p fs)).map (Option.map fun f => (f.1, f.2.1)) = fs.map some := by
  rw [sentFrames, splitFrames_framesEvents]
  induction fs generalizing ls with
  | nil => rfl
  | cons f fs ih =>
    rw [List.map_cons, decodeFrames, List.map_cons, frameDecode_frameEvents, ih, List.map_cons]

/-- Settles O21: the first steps of INIT do not assert chip-select, and its frames are read back as `initFrames`. -/
theorem initOnTheWire : Obligations.InitOnTheWire := by
  intro p ls
  have outside : .w .cs false ∉ outputEvents p ++ hardResetEvents := by
    cases hp : p.dcBinding <;> simp [outputEvents, hardResetEvents, hp]
  rw [initEvents_eq, sentFrames, splitFrames_outside outside, ← sentFrames, sentFrames_framesEvents, initFrames,
    List.map_append, List.map_append, List.map_map, List.map_map, List.map_replicate]
  rfl

/-! ### The shadow -/

/-- Settles O26: without its outputs the block makes no shadow update (`shadowAfter_of_not_outputs`). -/
theorem shadowWaitsForTheLines : Obligations.ShadowWaitsForTheLines := by
  intro i s t hi ho h
  obtain rfl := eq_requestDone_of_exec h
  exact shadowAfter_of_not_outputs hi ho

theorem phaseAfterDisplayOn_eq_normal :
    ∀ ph ∈ [Phase.configured, .normal, .allPixelsOn, .inverted, .off], phaseAfterDisplayOn ph = .normal := by decide

theorem phaseAfterDisplayOn_eq_unknown : ∀ ph ∈ [Phase.reset, .unknown], phaseAfterDisplayOn ph = .unknown := by decide

theorem phaseAfterDisplayOff_eq_off :
    ∀ ph ∈ [Phase.configured, .normal, .allPixelsOn, .inverted, .off], phaseAfterDisplayOff ph = .off := by decide

theorem phaseAfterDisplayOff_eq_unknown : ∀ ph ∈ [Phase.reset, .unknown], phaseAfterDisplayOff ph = .unknown := by decide

theorem phaseAfterInvert_of_shown (state : Bool) :
    ∀ ph ∈ [Phase.normal, .allPixelsOn, .inverted], phaseAfterInvert state ph = if state then .inverted else .normal := by
  cases state <;> decide

theorem phaseAfterInvert_eq_unknown (state : Bool) :
    ∀ ph ∈ [Phase.reset, .configured, .unknown], phaseAfterInvert state ph = .unknown := by
  cases state <;> decide

/-- A display-mode request, while the lines are outputs, leaves the phase its row of R128 names and the rest of the shadow
as it was. -/
theorem shadowBecomes_phase {i : Instr} (hi : i ≠ .init) {f : Phase → Phase}
    (hf : ∀ sh, requestShadow i sh = setPhase (f sh.phase) sh) {s : State} {ph : Phase} (h : f s.shadow.phase = ph) :
    ShadowBecomes s (requestDone i s) { s.shadow with phase := ph } := by
  rw [← h, ← setPhase, ← hf]
  exact shadowBecomes_requestDone hi s

theorem shadowBecomes_displayOn {s : State} {ph : Phase} (h : phaseAfterDisplayOn s.shadow.phase = ph) :
    ShadowBecomes s (requestDone .displayOn s) { s.shadow with phase := ph } :=
  shadowBecomes_phase Instr.noConfusion (fun _ => rfl) h

theorem shadowBecomes_displayOff {s : State} {ph : Phase} (h : phaseAfterDisplayOff s.shadow.phase = ph) :
    ShadowBecomes s (requestDone .displayOff s) { s.shadow with phase := ph } :=
  shadowBecomes_phase Instr.noConfusion (fun _ => rfl) h

theorem shadowBecomes_invertDisplay {state : Byte} {s : State} {ph : Phase}
    (h : phaseAfterInvert (truthy state) s.shadow.phase = ph) :
    ShadowBecomes s (requestDone (.invertDisplay state) s) { s.shadow with phase := ph } :=
  shadowBecomes_phase Instr.noConfusion (fun _ => rfl) h

theorem truthy_of_ne_zero {v : Byte} (h : v ≠ 0) : truthy v = true := bne_iff_ne.mpr h

theorem truthy_zero : truthy 0 = false := rfl

/-- Settles O25: each clause is a row of the three phase functions. -/
theorem displayModeRequestsMoveThePhase : Obligations.DisplayModeRequestsMoveThePhase := by
  refine ⟨fun s => ⟨_, exec_eq .displayOn s, fun h => ?_, fun h => ?_⟩,
    fun s => ⟨_, exec_eq .displayOff s, fun h => ?_, fun h => ?_⟩,
    fun state s => ⟨_, exec_eq (.invertDisplay state) s, fun h hs => ?_, fun h hs => ?_, fun h => ?_, fun h => ?_⟩⟩
  · exact shadowBecomes_displayOn (phaseAfterDisplayOn_eq_normal _ h)
  · exact shadowBecomes_displayOn (phaseAfterDisplayOn_eq_unknown _ h)
  · exact shadowBecomes_displayOff (phaseAfterDisplayOff_eq_off _ h)
  · exact shadowBecomes_displayOff (phaseAfterDisplayOff_eq_unknown _ h)
  · apply shadowBecomes_invertDisplay
    rw [phaseAfterInvert_of_shown _ _ h, truthy_of_ne_zero hs, if_pos rfl]
  · apply shadowBecomes_invertDisplay
    rw [phaseAfterInvert_of_shown _ _ h, hs, truthy_zero, if_neg Bool.false_ne_true]
  · exact shadowBecomes_invertDisplay (ph := s.shadow.phase) (by rw [h, phaseAfterInvert])
  · exact shadowBecomes_invertDisplay (phaseAfterInvert_eq_unknown _ _ h)

/-! ### One Command frame -/

/-- Settles O22: DISPLAY_ON drives the events of its frame alone. -/
theorem displayOnSendsItsCommand : Obligations.DisplayOnSendsItsCommand :=
  ⟨fun _ => decode_of_fieldOp, fun s => ⟨_, exec_eq _ s, drivesOnly_requestDone rfl Instr.noConfusion s⟩⟩

/-- Settles O23: DISPLAY_OFF drives the events of its frame alone. -/
theorem displayOffSendsItsCommand : Obligations.DisplayOffSendsItsCommand :=
  ⟨fun _ => decode_of_fieldOp, fun s => ⟨_, exec_eq _ s, drivesOnly_requestDone rfl Instr.noConfusion s⟩⟩

/-- Settles O24: INVERT_DISPLAY drives the frame of `invertByte`, which is one byte or the other by the operand. -/
theorem invertDisplaySendsItsCommand : Obligations.InvertDisplaySendsItsCommand := by
  refine ⟨fun w => decode_of_fieldOp, fun state s => ?_⟩
  have drives : DrivesOnly s (requestDone (.invertDisplay state) s)
      (frameEvents s.params .command (invertByte s.params state)) :=
    drivesOnly_requestDone rfl Instr.noConfusion s
  refine ⟨_, exec_eq _ s, fun hs => ?_, ?_⟩
  · rwa [invertByte_of_ne_zero _ hs] at drives
  · rintro rfl
    rwa [invertByte_zero] at drives

/-! ### SET_CONTRAST and SET_XY -/

theorem toNat_lowNibble (v : Byte) : (lowNibble v).toNat = v.toNat % 16 := Nat.and_two_pow_sub_one_eq_mod v.toNat 4

theorem truncate_lowNibble (v : Byte) : (lowNibble v).truncate 4 = v.extractLsb' 0 4 := by
  apply BitVec.eq_of_toNat_eq
  rw [BitVec.toNat_setWidth, toNat_lowNibble, BitVec.extractLsb'_toNat, Nat.mod_mod, Nat.shiftRight_zero]

/-- Settles O28: the two frames of `commandEvents`, and the contrast of `setContrastShadow`. -/
theorem setContrastSendsTwoCommands : Obligations.SetContrastSendsTwoCommands := by
  refine ⟨fun w => decode_of_fieldOp, fun value s => ?_⟩
  have notInit : Instr.setContrast value ≠ .init := Instr.noConfusion
  have shadow := shadowBecomes_requestDone notInit s
  rw [requestShadow, setContrastShadow, truncate_lowNibble] at shadow
  have drives := drivesOnly_requestDone rfl notInit s
  rw [requestEvents, commandEvents_cons, commandEvents_cons, commandEvents_nil, List.append_nil] at drives
  exact ⟨_, exec_eq _ s, drives, shadow⟩

theorem cursorInRange_natCast {x page : Nat} (hx : x < 96) (hpage : page < 9) : cursorInRange x page = true := by
  simp only [cursorInRange, decide_eq_true_eq]
  omega

theorem cursorInRange_eq_false {x page : Int} (h : x < 0 ∨ 96 ≤ x ∨ page < 0 ∨ 9 ≤ page) :
    cursorInRange x page = false := by
  simp only [cursorInRange, decide_eq_false_iff_not]
  omega

theorem lowNibble_natCast (n : Nat) : lowNibble (BitVec.ofInt 8 n) = BitVec.ofNat 8 (n % 16) := by
  apply BitVec.eq_of_toNat_eq
  rw [toNat_lowNibble, BitVec.ofInt_natCast, BitVec.toNat_ofNat, BitVec.toNat_ofNat]
  omega

theorem lowNibble_zeroExtend (v : BitVec 4) : lowNibble (v.zeroExtend 8) = v.zeroExtend 8 := by
  apply BitVec.eq_of_toNat_eq
  rw [toNat_lowNibble, BitVec.toNat_setWidth]
  omega

/-- SET_XY in range sends the three frames of `commandEvents` (R126). -/
theorem requestEvents_setXy (p : Params) (bytes : List Byte) {x page : Nat} (hx : x < 96) (hpage : page < 9) :
    requestEvents p bytes (.setXy x page) =
      frameEvents p .command (p.cmd.xaddrLoBase ||| BitVec.ofNat 8 (x % 16))
        ++ frameEvents p .command (p.cmd.xaddrHiBase ||| (p.xhi.getD x 0).zeroExtend 8)
        ++ frameEvents p .command (p.cmd.yaddrBase ||| BitVec.ofNat 8 page) := by
  rw [requestEvents, if_pos (cursorInRange_natCast hx hpage), commandEvents_cons, commandEvents_cons,
    commandEvents_cons, commandEvents_nil, List.append_nil, ← List.append_assoc, xAddrLowByte, lowNibble_natCast,
    xAddrHighByte, Int.toNat_natCast, lowNibble_zeroExtend, yAddrByte, lowNibble_natCast,
    Nat.mod_eq_of_lt (hpage.trans (by decide)), xhi]

/-- A request that drives no events and leaves the shadow leaves everything. -/
theorem changesNothing_of_drivesOnly_nil {s t : State} (h : DrivesOnly s t []) (hsh : t.shadow = s.shadow) :
    ChangesNothing s t := by
  obtain ⟨hc, hfb, hrsp, hresp, htr, hl, ho⟩ := h
  exact ⟨⟨hc, hl, ho, htr.trans (List.append_nil _), hsh, hrsp, hresp⟩, hfb⟩

/-- Settles O29: in range the frames are those of `requestEvents_setXy`; out of range the request has no events and no
shadow update. -/
theorem setXySendsThreeCommandsInRange : Obligations.SetXySendsThreeCommandsInRange := by
  have notInit : ∀ x page, Instr.setXy x page ≠ .init := fun _ _ => Instr.noConfusion
  constructor
  · intro x page s hx hpage
    have drives := drivesOnly_requestDone rfl (notInit x page) s
    rw [requestEvents_setXy s.params _ hx hpage] at drives
    have shadow := shadowBecomes_requestDone (notInit x page) s
    rw [requestShadow, if_pos (cursorInRange_natCast hx hpage)] at shadow
    exact ⟨_, exec_eq _ s, drives, shadow⟩
  · intro x page s h
    have drives := drivesOnly_requestDone rfl (notInit x page) s
    have out : ¬ cursorInRange x page = true := by rw [cursorInRange_eq_false h]; exact Bool.false_ne_true
    rw [requestEvents, if_neg out] at drives
    refine ⟨_, exec_eq _ s, changesNothing_of_drivesOnly_nil drives ?_⟩
    rw [requestDone_shadow, shadowAfter, if_neg (notInit x page), requestShadow, if_neg out, id, ite_self]

/-! ### Equal requests -/

/-- DISPLAY alone reads the framebuffer for what it sends (R190). -/
theorem requestEvents_of_ne_display {i : Instr} (hi : i ≠ .display) (p : Params) (bytes bytes' : List Byte) :
    requestEvents p bytes i = requestEvents p bytes' i := by
  cases i with
  | display => exact absurd rfl hi
  | _ => rfl

/-- What a request sends is what it would send again: DISPLAY leaves the framebuffer it reads. -/
theorem requestEvents_requestDone (i : Instr) (s : State) :
    requestEvents (requestDone i s).params (fbBytes (requestDone i s)) i = requestEvents s.params (fbBytes s) i := by
  rw [requestDone_params]
  by_cases hi : i = .display
  · have kept : requestFb .display s = s.fb := requestFb_of_not_writing (.inl rfl) Instr.noConfusion s
    rw [hi, fbBytes, requestDone_fb, kept, fbBytes]
  · exact requestEvents_of_ne_display hi _ _ _

/-- Settles O51: the events are a function of the parameters, the 864 bytes and the request (`requestEvents`). -/
theorem noCommandIsSuppressed : Obligations.NoCommandIsSuppressed := by
  constructor
  · intro i s s' t t' hp hfb h h'
    obtain rfl := eq_requestDone_of_exec h
    obtain rfl := eq_requestDone_of_exec h'
    exact ⟨_, requestDone_trace i s, by rw [requestDone_trace, hp, fbBytes_congr hfb]⟩
  · intro i s t u h h'
    obtain rfl := eq_requestDone_of_exec h
    obtain rfl := eq_requestDone_of_exec h'
    exact ⟨_, requestDone_trace i s, by rw [requestDone_trace i (requestDone i s), requestEvents_requestDone]⟩

end Sys2Proof.Proofs

/-!
PROOFS. The statements of 42_framebuffer.md. A request of the framebuffer or drawing family sends nothing
(`silent_requestDone`): it changes the framebuffer (`changesFbOnly_requestDone`) or it responds
(`respondsOnly_requestDone`), so each statement is a fact about the bytes `requestFb` leaves or about the word of
`requestResponse`. The pseudo-operations are lists of requests, run one after the other (`execAll_eq`).
-/
namespace Sys2Proof.Proofs

open Sys2Proof Sys2Proof.Machine

/-! ### Requests that leave the lines alone -/

/-- The trace, the latches, the output enables and the shadow are as they were (R152). -/
def Silent (s t : State) : Prop := t.trace = s.trace ∧ t.latch = s.latch ∧ t.oe = s.oe ∧ t.shadow = s.shadow

theorem Silent.refl (s : State) : Silent s s := ⟨rfl, rfl, rfl, rfl⟩

theorem Silent.trans {s t u : State} (h : Silent s t) (k : Silent t u) : Silent s u := by
  obtain ⟨htr, hl, ho, hsh⟩ := h
  obtain ⟨ktr, kl, ko, ksh⟩ := k
  exact ⟨ktr.trans htr, kl.trans hl, ko.trans ho, ksh.trans hsh⟩

theorem requestEvents_of_framebuffer {i : Instr} (h : framebufferRequest i = true) (p : Params) (bytes : List Byte) :
    requestEvents p bytes i = [] := by
  cases i with
  | init | displayOn | displayOff | setContrast | invertDisplay | display | xmit | hardReset | setXy =>
    exact Bool.noConfusion h
  | _ => rfl

theorem shadowAfter_of_framebuffer {i : Instr} (h : framebufferRequest i = true) (s : State) :
    shadowAfter i s = s.shadow := by
  cases i with
  | init | displayOn | displayOff | setContrast | invertDisplay | display | xmit | hardReset | setXy =>
    exact Bool.noConfusion h
  | _ => exact ite_self _

theorem silent_requestDone {i : Instr} (h : framebufferRequest i = true) (s : State) : Silent s (requestDone i s) := by
  have noEvents := requestEvents_of_framebuffer h s.params (fbBytes s)
  refine ⟨?_, ?_, ?_, shadowAfter_of_framebuffer h s⟩
  · rw [requestDone_trace, noEvents, List.append_nil]
  · rw [requestDone_latch, noEvents, replayLatch_nil]
  · rw [requestDone_oe, noEvents, replayOutputs_nil]

theorem requestResponse_of_not_responding {i : Instr} (h : respondingRequest i = false) (s : State) :
    requestResponse i s = none := by
  rw [← Option.not_isSome_iff_eq_none, isSome_requestResponse, h]
  exact Bool.false_ne_true

theorem requestDone_rsp_of_not_responding {i : Instr} (h : respondingRequest i = false) (s : State) :
    (requestDone i s).rsp = s.rsp := by
  rw [requestDone_rsp, requestResponse_of_not_responding h, Option.getD_none]

/-- A request of the two families that does not respond changes the framebuffer at most. -/
theorem changesFbOnly_requestDone {i : Instr} (h : framebufferRequest i = true) (hr : respondingRequest i = false)
    (s : State) : ChangesFbOnly s (requestDone i s) := by
  obtain ⟨htr, hl, ho, hsh⟩ := silent_requestDone h s
  refine ⟨⟨rfl, rfl, rfl, rfl⟩, hl, ho, htr, hsh, requestDone_rsp_of_not_responding hr s, ?_⟩
  rw [requestDone_responses, requestResponse_of_not_responding hr, Option.toList_none, List.append_nil]

theorem framebufferRequest_of_responding {i : Instr} (h : respondingRequest i = true) : framebufferRequest i = true := by
  cases i with
  | getPixel | getBufferSize | fbRead => rfl
  | _ => exact Bool.noConfusion h

/-- A request that responds changes nothing else of the block (R22, R52). -/
theorem respondsOnly_requestDone {i : Instr} {s : State} {v : Word16} (h : requestResponse i s = some v) :
    RespondsOnly s (requestDone i s) v := by
  have responds : respondingRequest i = true := by rw [← isSome_requestResponse i s, h]; rfl
  have notInit : i ≠ .init := by
    rintro rfl
    exact Bool.noConfusion responds
  obtain ⟨htr, hl, ho, hsh⟩ := silent_requestDone (framebufferRequest_of_responding responds) s
  refine ⟨⟨rfl, rfl, rfl, rfl⟩, requestFb_of_not_writing (.inr responds) notInit s, hl, ho, htr, hsh, ?_⟩
  rw [requestDone_rsp, h, Option.getD_some]

/-- Settles O56: `silent_requestDone`, and the fill of INIT leaves the bytes 0 whatever it finds (`Memory.read_fill`). -/
theorem framebufferRequestsAreSilent : Obligations.FramebufferRequestsAreSilent := by
  constructor
  · intro i s t hi h
    obtain rfl := eq_requestDone_of_exec h
    exact silent_requestDone hi s
  · intro i s t u _ _ h a ha
    obtain rfl := eq_requestDone_of_exec h
    exact (Memory.read_fill t.fb 0 a).trans (if_pos ha)

/-! ### CLEAR_DISPLAY and FILL_SCREEN -/

theorem exec_fillScreen_zero (s : State) : exec (.fillScreen 0) s = exec .clearDisplay s := rfl

/-- Settles O30: the framebuffer left is filled with 0. -/
theorem clearDisplayZeroesTheFramebuffer : Obligations.ClearDisplayZeroesTheFramebuffer :=
  ⟨fun _ => decode_of_fieldOp, fun s => ⟨_, exec_eq _ s, changesFbOnly_requestDone rfl rfl s,
    fun a ha => (Memory.read_fill s.fb 0 a).trans (if_pos ha), fun _ ha => read_requestFb_outside .clearDisplay s ha⟩⟩

theorem read_fillScreen (color : Byte) (s : State) {a : Nat} (ha : a < 864) :
    Memory.read (requestDone (.fillScreen color) s).fb a = if truthy color then 0xFF else 0x00 :=
  (Memory.read_fill s.fb _ a).trans (if_pos ha)

/-- Settles O31: the framebuffer left is filled with the byte the colour selects (`read_fillScreen`). -/
theorem fillScreenFillsEveryByte : Obligations.FillScreenFillsEveryByte := by
  refine ⟨fun _ => decode_of_fieldOp, exec_fillScreen_zero, fun color s =>
    ⟨_, exec_eq _ s, changesFbOnly_requestDone rfl rfl s, fun hc a ha => ?_, fun hc a ha => ?_,
      fun _ ha => read_requestFb_outside (.fillScreen color) s ha⟩⟩
  · rw [read_fillScreen color s ha, truthy_of_ne_zero hc, if_pos rfl]
  · rw [read_fillScreen color s ha, hc, truthy_zero, if_neg Bool.false_ne_true]

/-! ### Pixels -/

theorem inRange_natCast {x y : Nat} (hx : x < 96) (hy : y < 65) : inRange x y = true := by
  simp only [inRange, decide_eq_true_eq]
  omega

theorem not_inRange {x y : Int} (h : x < 0 ∨ 96 ≤ x ∨ y < 0 ∨ 65 ≤ y) : ¬ inRange x y = true := by
  simp only [inRange, decide_eq_true_eq]
  omega

theorem pixelIndex_natCast (x y : Nat) : pixelIndex x y = x + y / 8 * 96 := rfl

theorem pixelBit_natCast (y : Nat) : pixelBit y = y % 8 := rfl

/-- In the byte of a plotted pixel its own bit takes the colour and the other seven are kept (R154). -/
theorem getLsbD_read_plotPixel {x y : Int} (h : inRange x y = true) (color : Byte) (s : State) {k : Nat} (hk : k < 8) :
    (Memory.read (plotPixel x y color s).fb (pixelIndex x y)).getLsbD k =
      if k = pixelBit y then color != 0 else (Memory.read s.fb (pixelIndex x y)).getLsbD k := by
  rw [read_plotPixel_of_inRange h, if_pos rfl, ← truthy]
  cases truthy color with
  | true =>
    rw [if_pos rfl, BitVec.getLsbD_or, getLsbD_pixelMask hk]
    by_cases hb : k = pixelBit y <;> simp [hb]
  | false =>
    rw [if_neg Bool.false_ne_true, BitVec.getLsbD_and, BitVec.getLsbD_not, getLsbD_pixelMask hk]
    by_cases hb : k = pixelBit y <;> simp [hb, hk]

/-- Settles O32: in range the bits of the byte are those of `getLsbD_read_plotPixel`; out of range nothing is plotted. -/
theorem drawPixelSetsOrClearsOneBit : Obligations.DrawPixelSetsOrClearsOneBit := by
  refine ⟨fun _ => decode_of_fieldOp, fun x y color s hx hy => ?_, fun x y color s h => ?_⟩
  · have hin := inRange_natCast hx hy
    have bits := fun k => getLsbD_read_plotPixel hin color s (k := k)
    rw [pixelIndex_natCast, pixelBit_natCast] at bits
    refine ⟨_, exec_eq _ s, changesFbOnly_requestDone rfl rfl s, ?_, fun k hk hne => ?_, fun a ha => ?_⟩
    · exact (bits _ (Nat.mod_lt y (by decide))).trans (if_pos rfl)
    · exact (bits k hk).trans (if_neg hne)
    · exact (read_plotPixel_of_inRange hin color s a).trans (if_neg ha)
  · refine ⟨_, exec_eq _ s, changesFbOnly_requestDone rfl rfl s, ?_⟩
    rw [requestDone_fb, requestFb, plotPixel_of_not_inRange (not_inRange h)]

theorem zeroExtend_shiftRight_and_one (b : Byte) (k : Nat) :
    ((b >>> k) &&& 1#8).zeroExtend 16 = if b.getLsbD k then 1#16 else 0#16 := by
  rw [BitVec.and_one_eq_setWidth_ofBool_getLsbD, BitVec.getLsbD_ushiftRight, Nat.add_zero]
  cases b.getLsbD k <;> rfl

theorem pixelValue_natCast {x y : Nat} (hx : x < 96) (hy : y < 65) (s : State) :
    pixelValue x y s = if storedBit s x y then 1 else 0 := by
  rw [pixelValue, if_pos (inRange_natCast hx hy), zeroExtend_shiftRight_and_one]
  rfl

/-- Settles O33: `pixelValue_natCast` in range, and `pixelValue` answers 0 out of range. -/
theorem getPixelRespondsTheBit : Obligations.GetPixelRespondsTheBit := by
  refine ⟨fun x y s hx hy => ⟨_, exec_eq _ s, respondsOnly_requestDone ?_⟩,
    fun x y s h => ⟨_, exec_eq _ s, respondsOnly_requestDone ?_⟩⟩
  · exact congrArg some (pixelValue_natCast hx hy s)
  · exact congrArg some (if_neg (not_inRange h))

/-- GET_PIXEL of a pixel that took a colour responds whether that colour is not 0 (R154, R155). -/
theorem rsp_getPixel_of_storedBit {x y : Nat} (hx : x < 96) (hy : y < 65) {color : Byte} {s : State}
    (h : storedBit s x y = (color != 0)) :
    (requestDone (.getPixel x y) s).rsp = if color = 0 then 0 else 1 := by
  rw [requestDone_rsp, requestResponse, Option.getD_some, pixelValue_natCast hx hy, h]
  by_cases hc : color = 0 <;> simp [hc]

/-- Settles O37: the pixel plotted is the one painted (`painted_plotPixel`). -/
theorem drawnPixelReadsBack : Obligations.DrawnPixelReadsBack := by
  intro x y color s hx hy
  obtain ⟨covered, -⟩ := painted_plotPixel x y color s
  have drawn : storedBit (requestDone (.drawPixel x y color) s) x y = (color != 0) := covered x y hx hy ⟨rfl, rfl⟩
  exact ⟨_, _, exec_eq _ s, exec_eq _ _, rsp_getPixel_of_storedBit hx hy drawn⟩

theorem storedBit_fillScreen {x y : Nat} (hx : x < 96) (hy : y < 65) (color : Byte) (s : State) :
    storedBit (requestDone (.fillScreen color) s) x y = (color != 0) := by
  have bit : y % 8 < 8 := Nat.mod_lt y (by decide)
  rw [storedBit, read_fillScreen color s (by omega), ← truthy]
  cases truthy color with
  | true => exact (BitVec.getLsbD_allOnes (v := 8)).trans (decide_eq_true bit)
  | false => exact BitVec.getLsbD_zero

/-- Settles O38: `storedBit_fillScreen`, and CLEAR_DISPLAY is FILL_SCREEN of colour 0. -/
theorem filledScreenReadsFilled : Obligations.FilledScreenReadsFilled := by
  intro x y color s hx hy
  refine ⟨⟨_, _, exec_eq _ s, exec_eq _ _, rsp_getPixel_of_storedBit hx hy (storedBit_fillScreen hx hy color s)⟩, ?_⟩
  rw [← exec_fillScreen_zero]
  exact ⟨_, _, exec_eq _ s, exec_eq _ _, rsp_getPixel_of_storedBit hx hy (storedBit_fillScreen hx hy 0 s)⟩

/-! ### Bytes -/

/-- Settles O34: the response is the constant 864. -/
theorem getBufferSizeResponds864 : Obligations.GetBufferSizeResponds864 :=
  ⟨fun _ => decode_of_fieldOp, fun s => ⟨_, exec_eq _ s, respondsOnly_requestDone rfl⟩⟩

theorem indexInRange_of_lt {index : Nat} (h : index < 864) : indexInRange index = true := decide_eq_true h

theorem not_indexInRange {index : Nat} (h : 864 ≤ index) : ¬ indexInRange index = true := by
  simpa [indexInRange] using h

theorem requestResponse_fbRead {index : Nat} (h : index < 864) (s : State) :
    requestResponse (.fbRead index) s = some ((Memory.read s.fb index).zeroExtend 16) :=
  congrArg some (if_pos (indexInRange_of_lt h))

/-- Settles O35: the response is the byte inside the framebuffer, and 0 beyond it. -/
theorem fbReadRespondsTheByte : Obligations.FbReadRespondsTheByte := fun _ s =>
  ⟨_, exec_eq _ s, fun h => respondsOnly_requestDone (requestResponse_fbRead h s),
    fun h => respondsOnly_requestDone (congrArg some (if_neg (not_indexInRange h)))⟩

theorem requestDone_fbWrite_fb {index : Nat} (h : index < 864) (byte : Byte) (s : State) :
    (requestDone (.fbWrite index byte) s).fb = Memory.write s.fb index byte :=
  if_pos (indexInRange_of_lt h)

/-- Settles O36: inside the framebuffer it is one `Memory.write`, beyond it none. -/
theorem fbWriteReplacesTheByte : Obligations.FbWriteReplacesTheByte := by
  refine fun index byte s => ⟨_, exec_eq _ s, changesFbOnly_requestDone rfl rfl s, fun h => ?_, fun h => ?_⟩
  · rw [requestDone_fbWrite_fb h]
    exact ⟨Memory.read_write_same _ _ _, fun _ ha => Memory.read_write_other _ _ ha⟩
  · exact if_neg (not_indexInRange h)

/-! ### Lists of requests -/

/-- What a list of requests leaves when the last is over. -/
def requestsDone (is : List Instr) (s : State) : State := is.foldl (fun t i => requestDone i t) s

@[simp] theorem requestsDone_nil (s : State) : requestsDone [] s = s := rfl

@[simp] theorem requestsDone_cons (i : Instr) (is : List Instr) (s : State) :
    requestsDone (i :: is) s = requestsDone is (requestDone i s) := rfl

theorem execAll_eq (is : List Instr) (s : State) : execAll is s = .next (requestsDone is s) := by
  induction is generalizing s with
  | nil => rfl
  | cons i is ih => rw [execAll, exec_eq, requestsDone_cons, ← ih]

/-- What each request of a list keeps, the list keeps. -/
theorem requestsDone_keeps {P : State → Prop} {is : List Instr} (h : ∀ i ∈ is, ∀ t, P t → P (requestDone i t))
    {s : State} (hs : P s) : P (requestsDone is s) := by
  induction is generalizing s with
  | nil => exact hs
  | cons i is ih =>
    obtain ⟨hi, his⟩ := List.forall_mem_cons.mp h
    exact ih his (hi s hs)

theorem silent_requestsDone {is : List Instr} (h : ∀ i ∈ is, framebufferRequest i = true) (s : State) :
    Silent s (requestsDone is s) :=
  requestsDone_keeps (P := Silent s) (fun i hi t ht => ht.trans (silent_requestDone (h i hi) t)) (Silent.refl s)

theorem wf_requestsDone (is : List Instr) {s : State} (h : Memory.wf s.fb) : Memory.wf (requestsDone is s).fb :=
  requestsDone_keeps (P := fun t => Memory.wf t.fb) (fun i _ _ => wf_requestFb i) h

/-! ### PUSH_BUFFER -/

/-- `FB_WRITE` of each byte of a list, at the indices from `k` on. -/
def fbWrites (bytes : List Byte) (k : Nat) : List Instr := (bytes.zipIdx k).map fun q => .fbWrite q.2 q.1

theorem fbWrites_cons (b : Byte) (bytes : List Byte) (k : Nat) :
    fbWrites (b :: bytes) k = .fbWrite k b :: fbWrites bytes (k + 1) := rfl

/-- A run of writes that fits leaves its bytes at the indices from `k` on, and every other byte as it was. -/
theorem read_fbWrites {bytes : List Byte} {k : Nat} (h : k + bytes.length ≤ 864) (s : State) (a : Nat) :
    Memory.read (requestsDone (fbWrites bytes k) s).fb a =
      if k ≤ a then bytes.getD (a - k) (Memory.read s.fb a) else Memory.read s.fb a := by
  induction bytes generalizing k s with
  | nil => exact (ite_self _).symm
  | cons b bytes ih =>
    rw [List.length_cons] at h
    rw [fbWrites_cons, requestsDone_cons, ih (by omega), requestDone_fbWrite_fb (by omega), Memory.read_write]
    obtain hlt | rfl | hgt := Nat.lt_trichotomy a k
    · rw [if_neg (by omega), if_neg (by omega), if_neg (by omega)]
    · rw [if_neg (by omega), if_pos rfl, if_pos le_rfl, Nat.sub_self, List.getD_cons_zero]
    · rw [if_pos (Nat.succ_le_of_lt hgt), if_neg (by omega), if_pos hgt.le,
        show a - k = a - (k + 1) + 1 by omega, List.getD_cons_succ]

theorem pushBuffer_of_le {size : Nat} (h : size ≤ 864) (buf : List Byte) :
    pushBuffer buf size = fbWrites (buf.take size) 0 := if_pos h

theorem pushBuffer_of_lt {size : Nat} (h : 864 < size) (buf : List Byte) : pushBuffer buf size = [] :=
  if_neg (Nat.not_le.mpr h)

theorem exists_fbWrite_of_mem_pushBuffer {buf : List Byte} {size : Nat} {i : Instr} (h : i ∈ pushBuffer buf size) :
    ∃ index byte, i = .fbWrite index byte := by
  unfold pushBuffer at h
  split at h
  · obtain ⟨q, -, rfl⟩ := List.mem_map.mp h
    exact ⟨_, _, rfl⟩
  · exact absurd h List.not_mem_nil

theorem silent_pushBuffer (buf : List Byte) (size : Nat) (s : State) :
    Silent s (requestsDone (pushBuffer buf size) s) := by
  refine silent_requestsDone (fun i hi => ?_) s
  obtain ⟨index, byte, rfl⟩ := exists_fbWrite_of_mem_pushBuffer hi
  rfl

theorem rsp_pushBuffer (buf : List Byte) (size : Nat) (s : State) :
    (requestsDone (pushBuffer buf size) s).rsp = s.rsp := by
  refine requestsDone_keeps (P := fun t => t.rsp = s.rsp) (fun i hi t ht => ?_) rfl
  obtain ⟨index, byte, rfl⟩ := exists_fbWrite_of_mem_pushBuffer hi
  exact (requestDone_rsp_of_not_responding rfl t).trans ht

/-- PUSH_BUFFER of a size that fits copies the first bytes of the buffer and keeps the rest (R159). -/
theorem read_pushBuffer {buf : List Byte} {size : Nat} (hs : size ≤ 864) (hl : size ≤ buf.length) (s : State) (a : Nat) :
    Memory.read (requestsDone (pushBuffer buf size) s).fb a = if a < size then buf.getD a 0 else Memory.read s.fb a := by
  have length : (buf.take size).length = size := List.length_take_of_le hl
  rw [pushBuffer_of_le hs, read_fbWrites (by omega), if_pos (Nat.zero_le a), Nat.sub_zero]
  split
  · next ha =>
    have inside : a < buf.length := ha.trans_le hl
    rw [List.getD_eq_getElem _ _ (length.symm ▸ ha), List.getElem_take, List.getD_eq_getElem _ _ inside]
  · next ha => exact List.getD_eq_default _ _ (by omega)

/-- Settles O39: `read_pushBuffer` for a size that fits; for a larger one there is no request. -/
theorem pushBufferCopiesAPrefix : Obligations.PushBufferCopiesAPrefix := by
  constructor
  · intro buf size s hs hl
    obtain ⟨htr, hlat, ho, hsh⟩ := silent_pushBuffer buf size s
    exact ⟨_, execAll_eq _ s, fun a ha => (read_pushBuffer hs hl s a).trans (if_pos ha),
      fun a ha => (read_pushBuffer hs hl s a).trans (if_neg (Nat.not_lt.mpr ha)), htr, hlat, ho, hsh,
      rsp_pushBuffer buf size s⟩
  · intro buf size s hs
    rw [pushBuffer_of_lt hs]
    rfl

/-! ### GET_BUFFER -/

theorem requestDone_fbRead_fb (index : Nat) (s : State) : (requestDone (.fbRead index) s).fb = s.fb := rfl

theorem exists_fbRead_of_mem_getBuffer {i : Instr} (h : i ∈ getBuffer) : ∃ index, i = .fbRead index := by
  obtain ⟨index, -, rfl⟩ := List.mem_map.mp h
  exact ⟨index, rfl⟩

theorem silent_getBuffer (s : State) : Silent s (requestsDone getBuffer s) := by
  refine silent_requestsDone (fun i hi => ?_) s
  obtain ⟨index, rfl⟩ := exists_fbRead_of_mem_getBuffer hi
  rfl

theorem getBuffer_fb (s : State) : (requestsDone getBuffer s).fb = s.fb := by
  refine requestsDone_keeps (P := fun t => t.fb = s.fb) (fun i hi t ht => ?_) rfl
  obtain ⟨index, rfl⟩ := exists_fbRead_of_mem_getBuffer hi
  exact (requestDone_fbRead_fb index t).trans ht

/-- Reads of the framebuffer respond its bytes in the order asked for. -/
theorem responses_fbReads {is : List Nat} (h : ∀ a ∈ is, a < 864) (s : State) :
    (requestsDone (is.map .fbRead) s).responses =
      s.responses ++ is.map fun a => (Memory.read s.fb a).zeroExtend 16 := by
  induction is generalizing s with
  | nil => exact (List.append_nil _).symm
  | cons a is ih =>
    obtain ⟨ha, his⟩ := List.forall_mem_cons.mp h
    rw [List.map_cons, requestsDone_cons, ih his, requestDone_responses, requestResponse_fbRead ha,
      requestDone_fbRead_fb, Option.toList_some, List.append_assoc, List.singleton_append, List.map_cons]

/-- The host collects the last 864 responses, whatever came before them (R160; log 13). -/
theorem collectedBuffer_of_responses {t : State} {before last : List Word16} (h : t.responses = before ++ last)
    (hl : last.length = 864) : collectedBuffer t = last.map (·.truncate 8) := by
  rw [collectedBuffer, h, List.drop_left' (by rw [List.length_append, hl, Nat.add_sub_cancel])]

theorem truncate_zeroExtend (b : Byte) : (b.zeroExtend 16).truncate 8 = b :=
  BitVec.setWidth_setWidth_of_le b (by decide)

theorem collectedBuffer_getBuffer (s : State) : collectedBuffer (requestsDone getBuffer s) = fbBytes s := by
  have responses := responses_fbReads (fun a ha => List.mem_range.mp ha) s (is := List.range 864)
  rw [fbBytes, getBuffer, collectedBuffer_of_responses responses (by rw [List.length_map, List.length_range]),
    List.map_map]
  exact List.map_congr_left fun a _ => truncate_zeroExtend _

/-- Settles O40: the responses are the bytes in index order (`collectedBuffer_getBuffer`), and a read changes nothing
else. -/
theorem getBufferReadsTheFramebuffer : Obligations.GetBufferReadsTheFramebuffer := fun s =>
  ⟨_, execAll_eq _ s, collectedBuffer_getBuffer s, getBuffer_fb s, silent_getBuffer s⟩

theorem length_fbBytes (s : State) : (fbBytes s).length = 864 := by
  rw [fbBytes, List.length_map, List.length_range]

theorem getD_fbBytes (s : State) {a : Nat} (ha : a < 864) : (fbBytes s).getD a 0 = Memory.read s.fb a := by
  rw [List.getD_eq_getElem _ _ ((length_fbBytes s).symm ▸ ha)]
  simp only [fbBytes, List.getElem_map, List.getElem_range]

/-- Settles O41: the framebuffer left reads as it did at every index, and canonical memories that read alike are the same
list (`Memory.eq_of_read_eq`). -/
theorem pushingWhatWasReadChangesNothing : Obligations.PushingWhatWasReadChangesNothing := by
  intro s hs
  have kept : Memory.wf (requestsDone getBuffer s).fb := wf_requestsDone _ hs
  refine ⟨_, _, execAll_eq _ s, execAll_eq _ _, Memory.eq_of_read_eq (wf_requestsDone _ kept) hs fun a => ?_⟩
  rw [collectedBuffer_getBuffer, read_pushBuffer le_rfl (length_fbBytes s).ge, getBuffer_fb]
  split
  · next ha => exact getD_fbBytes s ha
  · rfl

end Sys2Proof.Proofs

/-!
PROOFS. The statements of 43_drawing.md. The framebuffer a shape leaves is that of its loops (`outline`, `box`), and
what the loops paint is `drawsOnly_outline` and `drawsOnly_box`. On a clear framebuffer the lit bits are then exactly
the pixels painted (`litBits_eq`), and the outline is the box without the box inside it.
-/
namespace Sys2Proof.Proofs

open Sys2Proof Sys2Proof.Machine

/-! ### What the shapes paint -/

/-- DRAW_RECT paints the outline for every size a loop counter can count to (R180; log 20). -/
theorem painted_drawRect (x y : Int) {w h : Int} (hw : w ≤ 32767) (hh : h ≤ 32767) (color : Byte) (s : State) :
    Painted s (requestDone (.drawRect x y w h color) s) (OnOutline x y w h) color := by
  obtain ⟨-, -, painted⟩ := drawsOnly_outline x y hw hh color s
  exact painted.of_fb_eq rfl rfl

/-- FILL_RECT paints the box for every size a loop counter can count to (R181; log 20). -/
theorem painted_fillRect (x y : Int) {w h : Int} (hw : w ≤ 32767) (hh : h ≤ 32767) (color : Byte) (s : State) :
    Painted s (requestDone (.fillRect x y w h color) s) (InBox x y w h) color := by
  obtain ⟨-, -, painted⟩ := drawsOnly_box x y hw hh color s
  exact painted.of_fb_eq rfl rfl

/-- Settles O42: a size a word can hold is one `painted_drawRect` speaks of. -/
theorem drawRectPaintsTheOutline : Obligations.DrawRectPaintsTheOutline := by
  refine ⟨fun _ => decode_of_fieldOp, fun x y w h color s wf => ?_⟩
  simp only [Instr.wellFormed, Bool.and_eq_true, inS16, decide_eq_true_eq] at wf
  exact ⟨_, exec_eq _ s, changesFbOnly_requestDone rfl rfl s,
    painted_drawRect x y (by omega) (by omega) color s⟩

/-- Settles O43: a size a word can hold is one `painted_fillRect` speaks of. -/
theorem fillRectPaintsTheBox : Obligations.FillRectPaintsTheBox := by
  refine ⟨fun _ => decode_of_fieldOp, fun x y w h color s wf => ?_⟩
  simp only [Instr.wellFormed, Bool.and_eq_true, inS16, decide_eq_true_eq] at wf
  exact ⟨_, exec_eq _ s, changesFbOnly_requestDone rfl rfl s,
    painted_fillRect x y (by omega) (by omega) color s⟩

theorem exec_drawSquare (x y a : Int) (color : Byte) (s : State) :
    exec (.drawSquare x y a color) s = exec (.drawRect x y a a color) s := rfl

theorem exec_fillSquare (x y a : Int) (color : Byte) (s : State) :
    exec (.fillSquare x y a color) s = exec (.fillRect x y a a color) s := rfl

/-- Settles O44: the two requests have one outcome (`exec_drawSquare`), and what it paints is `painted_drawRect`. -/
theorem drawSquareIsASquareDrawRect : Obligations.DrawSquareIsASquareDrawRect := by
  refine ⟨fun _ => decode_of_fieldOp, fun x y a color s wf => ?_⟩
  simp only [Instr.wellFormed, Bool.and_eq_true, inS16, decide_eq_true_eq] at wf
  exact ⟨_, (exec_drawSquare x y a color s).trans (exec_eq _ s), exec_eq _ s, changesFbOnly_requestDone rfl rfl s,
    painted_drawRect x y (by omega) (by omega) color s⟩

/-- Settles O45: the two requests have one outcome (`exec_fillSquare`), and what it paints is `painted_fillRect`. -/
theorem fillSquareIsASquareFillRect : Obligations.FillSquareIsASquareFillRect := by
  refine ⟨fun _ => decode_of_fieldOp, fun x y a color s wf => ?_⟩
  simp only [Instr.wellFormed, Bool.and_eq_true, inS16, decide_eq_true_eq] at wf
  exact ⟨_, (exec_fillSquare x y a color s).trans (exec_eq _ s), exec_eq _ s, changesFbOnly_requestDone rfl rfl s,
    painted_fillRect x y (by omega) (by omega) color s⟩

/-! ### Pixel counts -/

/-- The stored bits that are 1, of all 72 rows. -/
def litBits (t : State) : Finset (Nat × Nat) :=
  (Finset.range 96 ×ˢ Finset.range 72).filter fun q => storedBit t q.1 q.2 = true

theorem storedBit_of_clear {s : State} (h : ∀ a, Memory.read s.fb a = 0) (x row : Nat) : storedBit s x row = false := by
  rw [storedBit, h]
  exact BitVec.getLsbD_zero

/-- Painted on a clear framebuffer in a colour that lights, a stored bit is 1 exactly where a pixel of the display was
painted: rows 65 to 71 stay 0. -/
theorem storedBit_iff_of_painted {s t : State} {covered : Int → Int → Prop} {color : Byte}
    (clear : ∀ a, Memory.read s.fb a = 0) (hc : color ≠ 0) (painted : Painted s t covered color) {x row : Nat}
    (hx : x < 96) (hr : row < 72) : storedBit t x row = true ↔ row < 65 ∧ covered x row := by
  obtain ⟨inside, outside, hidden, -⟩ := painted
  have lights : (color != 0) = true := bne_iff_ne.mpr hc
  by_cases shown : row < 65
  · by_cases hcov : covered x row
    · simp only [inside x row hx shown hcov, lights, shown, hcov, and_self]
    · simp [outside x row hx shown hcov, storedBit_of_clear clear, hcov]
  · simp [hidden x row hx (not_lt.mp shown) hr, storedBit_of_clear clear, shown]

/-- The lit bits are the pixels painted, for a set of pixels that lies on the display. -/
theorem litBits_eq {s t : State} {covered : Int → Int → Prop} {color : Byte} {pixels : Finset (Nat × Nat)}
    (clear : ∀ a, Memory.read s.fb a = 0) (hc : color ≠ 0) (painted : Painted s t covered color)
    (shown : ∀ q ∈ pixels, q.1 < 96 ∧ q.2 < 65) (mem : ∀ q, q ∈ pixels ↔ covered q.1 q.2) : litBits t = pixels := by
  ext q
  simp only [litBits, Finset.mem_filter, Finset.mem_product, Finset.mem_range]
  constructor
  · rintro ⟨⟨hx, hr⟩, lit⟩
    exact (mem q).mpr ((storedBit_iff_of_painted clear hc painted hx hr).mp lit).2
  · intro hq
    obtain ⟨hx, hr⟩ := shown q hq
    have stored : q.2 < 72 := by omega
    exact ⟨⟨hx, stored⟩, (storedBit_iff_of_painted clear hc painted hx stored).mpr ⟨hr, (mem q).mp hq⟩⟩

/-- The pixels of the box, as (column, row). -/
def boxPixels (x y w h : Nat) : Finset (Nat × Nat) := Finset.Ico x (x + w) ×ˢ Finset.Ico y (y + h)

theorem card_boxPixels (x y w h : Nat) : (boxPixels x y w h).card = w * h := by
  rw [boxPixels, Finset.card_product, Nat.card_Ico, Nat.card_Ico, Nat.add_sub_cancel_left, Nat.add_sub_cancel_left]

theorem mem_boxPixels {x y w h : Nat} {q : Nat × Nat} : q ∈ boxPixels x y w h ↔ InBox x y w h q.1 q.2 := by
  simp only [boxPixels, Finset.mem_product, Finset.mem_Ico, InBox]
  omega

theorem boxPixels_shown {x y w h : Nat} (hx : x + w ≤ 96) (hy : y + h ≤ 65) :
    ∀ q ∈ boxPixels x y w h, q.1 < 96 ∧ q.2 < 65 := by
  simp only [boxPixels, Finset.mem_product, Finset.mem_Ico]
  omega

/-- The pixels of the four sides: the box without the box that lies one pixel inside it. -/
def outlinePixels (x y w h : Nat) : Finset (Nat × Nat) :=
  boxPixels x y w h \ boxPixels (x + 1) (y + 1) (w - 2) (h - 2)

theorem mem_outlinePixels {x y w h : Nat} {q : Nat × Nat} :
    q ∈ outlinePixels x y w h ↔ OnOutline x y w h q.1 q.2 := by
  simp only [outlinePixels, Finset.mem_sdiff, mem_boxPixels, OnOutline, InBox]
  omega

theorem card_outlinePixels (x y : Nat) {w h : Nat} (hw : 2 ≤ w) (hh : 2 ≤ h) :
    (outlinePixels x y w h).card = 2 * w + 2 * h - 4 := by
  have inner : boxPixels (x + 1) (y + 1) (w - 2) (h - 2) ⊆ boxPixels x y w h := by
    intro q
    simp only [mem_boxPixels, InBox]
    omega
  rw [outlinePixels, Finset.card_sdiff_of_subset inner, card_boxPixels, card_boxPixels]
  obtain ⟨m, rfl⟩ := Nat.exists_eq_add_of_le hw
  obtain ⟨n, rfl⟩ := Nat.exists_eq_add_of_le hh
  have area : (2 + m) * (2 + n) = m * n + (2 * m + 2 * n + 4) := by ring
  rw [area, Nat.add_sub_cancel_left, Nat.add_sub_cancel_left, Nat.add_sub_cancel_left]
  omega

/-- Settles O46: the lit bits are those of `outlinePixels` and of `boxPixels`. -/
theorem rectanglePixelCounts : Obligations.RectanglePixelCounts := by
  intro x y w h color s hc hw hh hx hy clear
  have shown := boxPixels_shown hx hy
  have shownSides : ∀ q ∈ outlinePixels x y w h, q.1 < 96 ∧ q.2 < 65 := fun q hq => shown q (Finset.mem_sdiff.mp hq).1
  have sides := painted_drawRect x y (w := w) (h := h) (by omega) (by omega) color s
  have filled := painted_fillRect x y (w := w) (h := h) (by omega) (by omega) color s
  refine ⟨⟨_, exec_eq _ s, ?_⟩, ⟨_, exec_eq _ s, ?_⟩⟩
  · change (litBits _).card = 2 * w + 2 * h - 4
    rw [litBits_eq clear hc sides shownSides fun _ => mem_outlinePixels, card_outlinePixels x y hw.le hh.le]
  · change (litBits _).card = w * h
    rw [litBits_eq clear hc filled shown fun _ => mem_boxPixels, card_boxPixels]

end Sys2Proof.Proofs

/-!
PROOFS. The statements of 44_flush.md. DISPLAY sends the framebuffer's bytes in index order (`requestEvents`), and pages by
columns is that order (`flatMap_pages_columns`). Each frame leaves its last bit on the data line, which is where the next
frame finds it (`sentFrames_framesEvents_dedicated`).
-/
namespace Sys2Proof.Proofs

open Sys2Proof Sys2Proof.Machine

/-! ### The order of the bytes -/

/-- Going through the pages and the columns within each is going through the indices in order (R43, R190). -/
theorem flatMap_pages_columns {α : Type} (f : Nat → List α) (n : Nat) :
    ((List.range n).flatMap fun page => (List.range 96).flatMap fun col => f (col + page * 96)) =
      (List.range (n * 96)).flatMap f := by
  induction n with
  | zero => rfl
  | succ n ih =>
    have lastPage : ((List.range 96).map (n * 96 + ·)).flatMap f =
        (List.range 96).flatMap fun col => f (col + n * 96) := by
      simp only [List.flatMap_map, Nat.add_comm]
    rw [List.range_succ (n := n), List.flatMap_append, ih, List.flatMap_singleton, Nat.succ_mul, List.range_add,
      List.flatMap_append, lastPage]

/-- The bytes of a flush in the order R190 sends them. -/
theorem dataEvents_fbBytes (p : Params) (s : State) :
    dataEvents p (fbBytes s) = (List.range 9).flatMap fun page => (List.range 96).flatMap fun col =>
      frameEvents p .data (Memory.read s.fb (col + page * 96)) := by
  rw [flatMap_pages_columns fun a => frameEvents p .data (Memory.read s.fb a), dataEvents, fbBytes, List.flatMap_map]

/-- DISPLAY makes no shadow update (R190). -/
theorem shadowAfter_display (s : State) : shadowAfter .display s = s.shadow := by
  rw [shadowAfter, if_neg Instr.noConfusion, requestShadow, id, ite_self]

/-- Settles O47: DISPLAY drives the frames of `fbBytes`, which are in the order of `dataEvents_fbBytes`. -/
theorem displayStreamsTheFramebuffer : Obligations.DisplayStreamsTheFramebuffer := by
  refine ⟨fun _ => decode_of_fieldOp, fun s => ⟨_, exec_eq .display s, ?_, shadowAfter_display s⟩⟩
  rw [← dataEvents_fbBytes]
  exact drivesOnly_requestDone rfl Instr.noConfusion s

/-! ### The flush on the wire -/

/-- With a dedicated select line, frames sent one after the other are read back in order, each led by bit 0 of the byte
before it and the first by the level found (R79, R106). -/
theorem sentFrames_framesEvents_dedicated {p : Params} (hp : p.dcBinding = .dedicated) (fs : List (Kind × Byte))
    (ls : Lines) :
    sentFrames p ls (framesEvents p fs) =
      List.zipWith (fun f lead => some (f.1, f.2, lead)) fs (ls.data :: fs.map fun f => f.2.getLsbD 0) := by
  rw [sentFrames, splitFrames_framesEvents]
  induction fs generalizing ls with
  | nil => rfl
  | cons f fs ih =>
    obtain ⟨-, -, decoded, -⟩ := frameDecodesToTheByteSent p f.1 f.2 ls
    rw [List.map_cons, decodeFrames, decoded hp, ih, replayLatch_frameEvents, List.map_cons, List.zipWith_cons_cons]

/-- Pairing each value with what the one before it left, and the first with `start`, index by index. -/
theorem zipWith_previous {α β γ : Type} (g : α → β → γ) (last : α → β) (start : β) (f : Nat → α) (n : Nat) :
    List.zipWith g ((List.range n).map f) (start :: ((List.range n).map f).map last) =
      (List.range n).map fun k => g (f k) (if k = 0 then start else last (f (k - 1))) := by
  apply List.ext_getElem
  · simp
  · intro k _ _
    cases k with
    | zero => simp
    | succ k => simp

/-- Settles O48: the frames of the 864 bytes decode as `sentFrames_framesEvents_dedicated` says, read off index by index
by `zipWith_previous`. -/
theorem displayOnTheWire : Obligations.DisplayOnTheWire := by
  intro s hp
  refine ⟨_, _, exec_eq .display s, requestDone_trace .display s, ?_⟩
  rw [requestEvents, dataEvents, ← framesEvents_map, sentFrames_framesEvents_dedicated hp, fbBytes, List.map_map,
    zipWith_previous]
  rfl

end Sys2Proof.Proofs

/-!
PROOFS. The statements of 60_exceptions.md. Every request answers the next state `requestDone` (`exec_eq`), and a step does
nothing but wait, run one request, or end a reserved one (`step_cases`), so neither can stop.
-/
namespace Sys2Proof.Proofs

open Sys2Proof Sys2Proof.Machine

/-- A request that is over has kept the parameters, the binding and the requests to come (R17, R200). -/
theorem completed_requestDone (i : Instr) (s : State) : Completed s (requestDone i s) :=
  ⟨requestDone_params i s, requestDone_binding i s, requestDone_program i s, requestDone_busy i s⟩

/-- No step faults or is refused (R200). -/
theorem exists_step_eq_next (s : State) : ∃ t, step s = .next t := by
  obtain ⟨waits, -, -⟩ | ⟨u, -, ⟨i, runs⟩ | ends⟩ := step_cases s
  · exact ⟨s, waits⟩
  · exact ⟨requestDone i u, runs⟩
  · exact ⟨retire u, ends⟩

/-- Settles O13: a request leaves `requestDone`, which is a completed one, and every case of `step_cases` answers a next
state. -/
theorem everyRequestRunsToCompletion : Obligations.EveryRequestRunsToCompletion :=
  ⟨fun i s => ⟨requestDone i s, exec_eq i s, completed_requestDone i s⟩, exists_step_eq_next⟩

end Sys2Proof.Proofs
